-- ==== Sys2Proof/Word.lean ====
section
/-! DEFINITION. The value types: a 32-bit register word (10_state R22), a memory byte, a bit
string (00_scope R12). -/

namespace Sys2Proof

/-- A u32: a register word, a bus address, bus data (R11). -/
abbrev Word := BitVec 32

/-- A memory byte, 0..255 (R12). -/
abbrev Byte := BitVec 8

/-- "A finite sequence of bits, each 0 or 1" (R12); element 0 is written or read first. -/
abbrev BitString := List Bool

end Sys2Proof
end

