-- ==== Sys2Proof/Syntax.lean ====
section
/-! DEFINITION. The commands: one constructor per row of spec/opcode_table.json. -/

namespace Sys2Proof

/-- The legal commands (30_encoding R91). A command word has no operand fields (R90), so no
constructor has an argument: operands come from registers and memories (R73). -/
inductive Instr where
  /-- R195 -/
  | nop
  /-- 41_codec R150 -/
  | embed
  /-- 41_codec R160 -/
  | extract
  /-- 42_mixer_control R190 -/
  | mix
  deriving DecidableEq, Repr

end Sys2Proof
end

