-- ==== Sys2Proof/Machine/Units.lean ====
section
/-! DEFINITION. The block's named parts as types: its memories, registers, result codes, engine
fields, and what crosses its boundary (transactions, responses, events). -/

namespace Sys2Proof.Machine

/-- The three byte memories (10_state R34, R35, R36). -/
inductive MemName where
  | pixmem | msgmem | keymem
  deriving DecidableEq, Repr

/-- The result codes a command can end with (60_exceptions R210). Codes 6 and 7 are "reserved and
never produced", so they have no name here (log 8). -/
inductive Result where
  | ok | capacityExceeded | noMsgTooSmall | noMsgBadLength | illegalCmd | badParam
  deriving DecidableEq, Repr

/-- `eng.state` (10_state R21). -/
inductive EngState where
  | idle | busy
  deriving DecidableEq, Repr

/-- `eng.op` (10_state R21): NOP, EMBED, EXTRACT or MIX, or the internal operation ILLEGAL that
stands for every reserved command word (30_encoding R92). -/
inductive EngOp where
  | command (i : Instr)
  | illegal
  deriving DecidableEq, Repr, Inhabited

/-- The registers at offsets 0x000 to 0x02C (10_state R22). -/
inductive Reg where
  | id | cmd | status | inten | pixcount | msglen | keylen | capbits | hdr | pixmax | msgmax | keymax
  deriving DecidableEq, Repr

/-- A transaction's kind (20_memory R61). -/
inductive Kind where
  | read | write
  deriving DecidableEq, Repr

/-- `bus_size` codes 0, 1, 2 (1, 2 and 4 bytes) and the invalid code 3 (R60, R61, R67 (a)). -/
inductive BusSize where
  | one | two | four | invalid
  deriving DecidableEq, Repr

/-- A host transaction `(kind, size, addr, wdata)` (R61). -/
structure Transaction where
  kind  : Kind
  size  : BusSize
  addr  : Word
  wdata : Word
  deriving DecidableEq, Repr

/-- OKAY or SLVERR (R61; the port bus_err of R60). -/
inductive Resp where
  | okay | slverr
  deriving DecidableEq, Repr

/-- The response `(resp, rdata)` to a transaction (R61). -/
structure Response where
  resp  : Resp
  rdata : Word
  deriving DecidableEq, Repr

/-- What a step can be (00_scope R3): a host transaction, the engine's completion step, or a
change of the reset input (70_reset R240). Log 4, log 5. -/
inductive Event where
  | host (t : Transaction)
  | engine
  | assertReset
  | releaseReset
  deriving DecidableEq, Repr

end Sys2Proof.Machine
end

