-- ==== Sys2Proof/Config.lean ====
section
/-! DEFINITION. What an implementation fixes (the three parameters of 00_scope R8) and the values
the spec leaves free (93_implementation_defined items 1 and 2). -/

namespace Sys2Proof.Config

/-- `MSGNEED(P) = max(0, (3*P - 32) div 8)`: the largest message byte count that fits in `P` pixels
(R8). Subtraction of naturals stops at 0, which is the `max`. -/
def msgNeed (p : Nat) : Nat := (3 * p - 32) / 8

/-- The implementation parameters of R8. The state holds them (log 1) and no step changes them. -/
structure Params where
  pixMax : Nat
  msgMax : Nat
  keyMax : Nat
  deriving DecidableEq, Repr

/-- The reference configuration of R9: "an example only. No rule depends on it". -/
def Params.reference : Params := { pixMax := 256, msgMax := 92, keyMax := 16 }

/-- FREE VALUE (R38, R241, 93 item 1, log 2): the byte at an offset of a memory that nothing has
written since the reset numbered `draw`. It has no body: nothing can be proved of its value. -/
opaque resetByte (draw : Nat) (mem : Machine.MemName) (offset : Nat) : Byte

/-- FREE VALUE (R38, 93 item 2, log 3): `eng.op` after the reset numbered `draw`. -/
opaque resetOp (draw : Nat) : Machine.EngOp

end Sys2Proof.Config
end

