-- ==== Sys2Proof/WellFormed.lean ====
section
/-! DEFINITION. The checks: which command words, parameters and bus sizes the spec allows. -/

namespace Sys2Proof

/-- A command word is legal iff its reserved field [31:2] is zero (30_encoding R90, R92). -/
def cmdWordWf (w : Word) : Bool := w.extractLsb' 2 30 == 0#30

/-- A command has no operand fields (R90), so every term of `Instr` is well formed. -/
def Instr.wf : Instr → Bool
  | .nop => true
  | .embed => true
  | .extract => true
  | .mix => true

/-- The constraints of 00_scope R8 on the three parameters. -/
def Config.Params.wf (p : Config.Params) : Bool :=
  (decide (1 ≤ p.pixMax) && decide (p.pixMax ≤ 2 ^ 29)) &&
  (decide (max 1 (Config.msgNeed p.pixMax) ≤ p.msgMax) && decide (p.msgMax ≤ 2 ^ 28)) &&
  (decide (1 ≤ p.keyMax) && decide (p.keyMax ≤ 4096))

/-- `bus_size` code 3 is invalid (20_memory R60, R67 (a)). -/
def Machine.BusSize.wf : Machine.BusSize → Bool
  | .one => true
  | .two => true
  | .four => true
  | .invalid => false

/-- `bitsToBytes` takes a bit string of `8*n` bits (40_datapath R121). -/
def wholeBytes (s : BitString) : Bool := s.length % 8 == 0

end Sys2Proof
end

