-- ==== Sys2Proof/Machine/Datapath.lean ====
section
/-! DEFINITION. The datapath primitives (40_datapath R120 to R131) and the payload format
(30_encoding R93 to R98): pure functions of bit strings and bytes. -/

namespace Sys2Proof.Machine

/-- A byte's "8-bit big-endian binary representation": element `t` is bit `7-t` (R96, R120). -/
def byteBits (b : Byte) : BitString := (List.range 8).map fun t => b.getLsbD (7 - t)

/-- The bits of the bytes in order (R120). -/
def bytesToBits : List Byte → BitString
  | [] => []
  | b :: bs => byteBits b ++ bytesToBits bs

/-- A bit string read as an unsigned big-endian integer (R98, R121). -/
def bitsToNat (s : BitString) : Nat := s.foldl (fun n b => 2 * n + b.toNat) 0

/-- Each group of 8 bits as one byte (R121). A last group of fewer than 8 bits, which no call of
the spec can give, yields no byte (93 item 8, log 11). -/
def bitsToBytes : BitString → List Byte
  | b0 :: b1 :: b2 :: b3 :: b4 :: b5 :: b6 :: b7 :: rest =>
    BitVec.ofNat 8 (bitsToNat [b0, b1, b2, b3, b4, b5, b6, b7]) :: bitsToBytes rest
  | _ => []

/-- `keystream(n)`: element `i` is key bit `i mod (8*K)` (R123, R124). Called for `K >= 1` only. -/
def keystream (key : List Byte) (n : Nat) : BitString :=
  (List.range n).map fun i => (bytesToBits key).getD (i % (8 * key.length)) false

/-- The keystream mixer (R125): the identity without a key, else the bitwise XOR. -/
def xorKey (key : List Byte) (s : BitString) : BitString :=
  if key.length = 0 then s else List.zipWith Bool.xor s (keystream key s.length)

/-- `chan(i) = 4*(i div 3) + (i mod 3)` (R130): the PIXMEM offset that carries element `i`. -/
def chan (i : Nat) : Nat := 4 * (i / 3) + i % 3

/-- The capacity in bits of a PixelBuffer of `p` pixels (R131). -/
def capacityBits (p : Nat) : Nat := 3 * p

/-- `be32bits(v)`: element `k` is bit `31-k` (R95). -/
def be32bits (v : Word) : BitString := (List.range 32).map fun k => v.getLsbD (31 - k)

/-- The payload of a message of `l` bytes (R93, R94). -/
def payloadBits (l : Word) (msg : List Byte) : BitString := be32bits l ++ bytesToBits msg

/-- The slice `s[i..j)` (00_scope R12). -/
def slice (s : BitString) (i j : Nat) : BitString := (s.drop i).take (j - i)

/-- `declaredByteLength`: the first 32 bits as an unsigned big-endian integer (R98, R164). -/
def declaredByteLength (d : BitString) : Nat := bitsToNat (slice d 0 32)

/-- `(v AND 0xFE) OR bit`: a channel byte with its bit 0 replaced (20_memory R76). -/
def replaceLsb (v : Byte) (bit : Bool) : Byte := (v &&& 0xFE#8) ||| (BitVec.ofBool bit).zeroExtend 8

end Sys2Proof.Machine
end

