-- ==== Sys2Proof/Decode.lean ====
section
/-! DEFINITION. The decoder of the command word (30_encoding R90 to R92), total on any bytes, and
after it the encoder. -/

namespace Sys2Proof

/-- Why bytes are no legal command. -/
inductive DecodeError where
  /-- fewer than the four bytes of a command word (R90: "exactly one 32-bit word") -/
  | tooShort
  /-- `RSV != 0` (R92); the block accepts such a word as the operation ILLEGAL -/
  | reservedBitsSet (rsv : BitVec 30)
  deriving DecidableEq, Repr

/-- The field OP, bits [1:0] (R90). -/
def cmdOp (w : Word) : BitVec 2 := w.extractLsb' 0 2

/-- The field RSV, bits [31:2] (R90). -/
def cmdRsv (w : Word) : BitVec 30 := w.extractLsb' 2 30

/-- The operation code (R91). -/
def opInstr (op : BitVec 2) : Instr :=
  if op = 0#2 then .nop else if op = 1#2 then .embed else if op = 2#2 then .extract else .mix

/-- The command a word stands for (R91), or the name of the reason that it stands for none (R92). -/
def decode (w : Word) : Except DecodeError Instr :=
  if cmdRsv w = 0#30 then .ok (opInstr (cmdOp w)) else .error (.reservedBitsSet (cmdRsv w))

/-- Four bytes as they lie on the little-endian bus lanes (20_memory R63), first byte lowest. -/
def wordOfBytes (b0 b1 b2 b3 : Byte) : Word := b3 ++ b2 ++ b1 ++ b0

/-- The decoder on bytes: the command and the bytes after it, or the reason for a rejection. -/
def decodeBytes : List Byte → Except DecodeError (Instr × List Byte)
  | b0 :: b1 :: b2 :: b3 :: rest =>
    match decode (wordOfBytes b0 b1 b2 b3) with
    | .ok i => .ok (i, rest)
    | .error e => .error e
  | _ => .error .tooShort

/-- `decode(v)` of 60_exceptions R211: the operation the engine takes, ILLEGAL for every word that
is no legal command. -/
def decodeOp (w : Word) : Machine.EngOp :=
  match decode w with
  | .ok i => .command i
  | .error _ => .illegal

/-- The 32-bit word of a table word: `nbits` bits are given, every bit above them is 0. -/
def tableWord (nbits w : Nat) : Word := BitVec.ofNat 32 (w % 2 ^ nbits)

/-- The bytes of a word in the order of the bus lanes (20_memory R63). -/
def bytesOfWord (w : Word) : List Byte :=
  [w.extractLsb' 0 8, w.extractLsb' 8 8, w.extractLsb' 16 8, w.extractLsb' 24 8]

/-- The instruction the decoder reads from a word of spec/opcode_table.json. -/
def decodeTableWord (nbits w : Nat) : Option Instr :=
  match decodeBytes (bytesOfWord (tableWord nbits w)) with
  | .ok (i, _) => some i
  | .error _ => none

/-- The command word of a command (R91). -/
def encode : Instr → Word
  | .nop => 0x00000000#32
  | .embed => 0x00000001#32
  | .extract => 0x00000002#32
  | .mix => 0x00000003#32

end Sys2Proof
end

