-- ==== Sys2Proof/Machine/State.lean ====
section
/-! DEFINITION. The machine's state as plain data, its reasons to stop, and the state after reset
(10_state R20 to R38). -/

namespace Sys2Proof.Machine

/-- Reasons for which a step ends in a fault. The spec has no fault of its own: bus errors are
responses and command errors are result codes, both in a next state. -/
inductive Fault where
  /-- Raised by EXTRACT alone, where it would write past the end of MSGMEM. Safe: R166 derives from
  R8 that no machine of the spec does so; only a state whose parameters break R8 stops here (log 9). -/
  | engineOffsetOutsideMemory
  deriving DecidableEq, Repr

/-- Reasons for which a step has no meaning. -/
inductive Refusal where
  /-- Raised by an arm of exec whose command has no meaning yet. Safe. None is left. -/
  | notModelled (mnemonic : String)
  /-- Raised by a step whose next event is a host transaction while `rst` is asserted. Safe: "the
  host must not issue one" (R240), "a model refuses it (no step is defined)" (93 item 4). -/
  | transactionDuringReset
  deriving DecidableEq, Repr

/-- The bytes of one memory that something has written since the last reset, as (offset, byte)
pairs with strictly rising offsets. An unlisted offset holds no written byte (log 2). -/
abbrev Memory := List Host.Cell

/-- The architectural state (10_state R20) and the model's own fields (`drawNo`, `response`,
`inputs`; `rst` is the level of an input). Registers without storage (ID, CMD, CAPBITS, the
parameter registers, STATUS.BUSY, `irq`) are computed. -/
structure State where
  /-- the implementation parameters (00_scope R8, 10_state R33) -/
  params : Config.Params
  /-- `eng.state` (R21) -/
  engState : EngState
  /-- `eng.op`, meaningful only while BUSY (R21) -/
  engOp : EngOp
  /-- STATUS.DONE (R26) -/
  done : Bool
  /-- STATUS.RESULT (R26, R210) -/
  result : Result
  /-- STATUS.HAZERR (R26) -/
  hazerr : Bool
  /-- INTEN.DONEIE (R27) -/
  doneie : Bool
  /-- PIXCOUNT (R28) -/
  pixcount : Word
  /-- MSGLEN (R29) -/
  msglen : Word
  /-- KEYLEN (R30) -/
  keylen : Word
  /-- HDR (R32) -/
  hdr : Word
  /-- PIXMEM (R34) -/
  pixmem : Memory
  /-- MSGMEM (R35) -/
  msgmem : Memory
  /-- KEYMEM (R36) -/
  keymem : Memory
  /-- the level of the reset input (R60, R240) -/
  rst : Bool
  /-- the model's own: which reset the unspecified values were drawn at (R241, log 2) -/
  drawNo : Nat
  /-- the model's own: the last response on the bus (R61, log 6) -/
  response : Option Response
  /-- the model's own: what happens next, oldest first (R70, log 4) -/
  inputs : List Event
  deriving DecidableEq, Repr

/-- The state after the reset numbered `draw` of a block with parameters `p` (10_state R38). -/
def State.afterReset (p : Config.Params) (draw : Nat) : State where
  params := p
  engState := .idle
  engOp := Config.resetOp draw
  done := false
  result := .ok
  hazerr := false
  doneie := false
  pixcount := 0#32
  msglen := 0#32
  keylen := 0#32
  hdr := 0#32
  pixmem := []
  msgmem := []
  keymem := []
  rst := false
  drawNo := draw
  response := none
  inputs := []

/-- The machine right after reset, in the reference configuration of R9 (log 1). -/
def State.reset : State := State.afterReset Config.Params.reference 0

end Sys2Proof.Machine
end

