-- ==== Sys2Proof/Machine/Flags.lean ====
section
/-! DEFINITION. Every value computed from flags and registers: the STATUS word and its write
(10_state R26), INTEN (R27), CAPBITS (R31), the interrupt output (R37). -/

namespace Sys2Proof.Machine

/-- The 3-bit result code (60_exceptions R210). -/
def Result.code : Result → BitVec 3
  | .ok => 0#3
  | .capacityExceeded => 1#3
  | .noMsgTooSmall => 2#3
  | .noMsgBadLength => 3#3
  | .illegalCmd => 4#3
  | .badParam => 5#3

/-- STATUS.BUSY: "1 iff `eng.state = BUSY`" (R26). -/
def State.busy (s : State) : Bool :=
  match s.engState with
  | .idle => false
  | .busy => true

/-- The word a read of STATUS returns (R26): bits [31:6] read 0. -/
def statusWord (s : State) : Word :=
  0#26 ++ BitVec.ofBool s.hazerr ++ s.result.code ++ BitVec.ofBool s.done ++ BitVec.ofBool s.busy

/-- A write of `w` to STATUS (R26): writing 1 clears DONE and HAZERR, other bits are ignored. -/
def writeStatus (w : Word) (s : State) : State :=
  { s with done := s.done && !(w.getLsbD 1), hazerr := s.hazerr && !(w.getLsbD 5) }

/-- The word a read of INTEN returns (R27): bits [31:1] read 0. -/
def intenWord (s : State) : Word := 0#31 ++ BitVec.ofBool s.doneie

/-- A write of `w` to INTEN (R27): bit 0 is stored, the others are ignored. -/
def writeInten (w : Word) (s : State) : State := { s with doneie := w.getLsbD 0 }

/-- CAPBITS: `(3 * PIXCOUNT) mod 2^32` (R31). -/
def capbitsWord (s : State) : Word := BitVec.ofNat 32 (3 * s.pixcount.toNat)

/-- The interrupt output: `STATUS.DONE AND INTEN.DONEIE` (R37, R217). -/
def irq (s : State) : Bool := s.done && s.doneie

/-- Every access refused under the BUSY rules sets HAZERR (R23, R74, R75). -/
def setHazard (s : State) : State := { s with hazerr := true }

end Sys2Proof.Machine
end

