-- ==== Sys2Proof/Machine/Ops.lean ====
section
/-! DEFINITION. The named operations over memories, registers and the engine: MemRead and MemWrite
(20_memory R76), register reads and writes (10_state R22 to R33), acceptance (60_exceptions R211),
completion (R212: the block's counterpart of taking an exception, R218) and reset (70_reset R240). -/

namespace Sys2Proof.Machine

/-! ### Memories -/

/-- The byte written at an offset, if one was written since the last reset. -/
def Memory.lookup : Memory → Nat → Option Byte
  | [], _ => none
  | (b, v) :: m, a => if b = a then some v else Memory.lookup m a

/-- Write a byte, keeping the offsets strictly rising. -/
def Memory.insert (a : Nat) (v : Byte) : Memory → Memory
  | [] => [(a, v)]
  | (b, w) :: m =>
    if a < b then (a, v) :: (b, w) :: m
    else if a = b then (a, v) :: m
    else (b, w) :: Memory.insert a v m

/-- The canonical form: strictly rising offsets. No entry can equal what an unlisted offset holds,
since that is no written byte (log 2). -/
def Memory.wf (m : Memory) : Bool := decide (m.Pairwise fun c d => c.1 < d.1)

/-- Every listed offset lies in a memory of `n` bytes (R34 to R36). -/
def Memory.within (n : Nat) (m : Memory) : Bool := m.all fun c => decide (c.1 < n)

/-- The written bytes of a memory. -/
def State.cells (s : State) : MemName → Memory
  | .pixmem => s.pixmem
  | .msgmem => s.msgmem
  | .keymem => s.keymem

/-- The size in bytes of a memory (R34, R35, R36). -/
def memSize (p : Config.Params) : MemName → Nat
  | .pixmem => 4 * p.pixMax
  | .msgmem => p.msgMax
  | .keymem => p.keyMax

/-- `MemRead(M, a, 1)` (R76): the byte last written, or the reset's free value (R241). -/
def memRead (M : MemName) (a : Nat) (s : State) : Byte :=
  match Memory.lookup (s.cells M) a with
  | some v => v
  | none => Config.resetByte s.drawNo M a

/-- `MemWrite(M, a, 1, v)` (R76). -/
def memWrite (M : MemName) (a : Nat) (v : Byte) (s : State) : State :=
  match M with
  | .pixmem => { s with pixmem := Memory.insert a v s.pixmem }
  | .msgmem => { s with msgmem := Memory.insert a v s.msgmem }
  | .keymem => { s with keymem := Memory.insert a v s.keymem }

/-- `[MemRead(M, a + j, 1) for j = 0 .. n-1]`. -/
def memReadList (M : MemName) (a n : Nat) (s : State) : List Byte :=
  (List.range n).map fun j => memRead M (a + j) s

/-- `MemWrite(M, a + j, 1, bs[j])` for every `j`, in order. -/
def memWriteList (M : MemName) (a : Nat) : List Byte → State → State
  | [], s => s
  | b :: bs, s => memWriteList M (a + 1) bs (memWrite M a b s)

/-! ### Acceptance and completion -/

/-- Acceptance of the command word `v` by an IDLE engine (R211). -/
def accept (v : Word) (s : State) : State :=
  { s with engOp := decodeOp v, engState := .busy, done := false }

/-- Completion with result `c` (R212): what every command's rule ends in. It saves the result and
changes no mode, mask or stack (R218). -/
def complete (c : Result) (s : State) : State :=
  { s with result := c, done := true, engState := .idle }

/-! ### Registers -/

/-- The constant of the register ID (R24). -/
def idValue : Word := 0x53544731#32

/-- A register read (R22 to R33). It has no side effect (R69). -/
def readReg (r : Reg) (s : State) : Word :=
  match r with
  | .id => idValue
  | .cmd => 0#32
  | .status => statusWord s
  | .inten => intenWord s
  | .pixcount => s.pixcount
  | .msglen => s.msglen
  | .keylen => s.keylen
  | .capbits => capbitsWord s
  | .hdr => s.hdr
  | .pixmax => BitVec.ofNat 32 s.params.pixMax
  | .msgmax => BitVec.ofNat 32 s.params.msgMax
  | .keymax => BitVec.ofNat 32 s.params.keyMax

/-- The BUSY write rule (R23): while BUSY the write changes nothing and sets HAZERR. -/
def unlessBusy (write : State → State) (s : State) : State :=
  if s.busy then setHazard s else write s

/-- A register write (R22 to R33). A write to a read-only register is ignored. -/
def writeReg (r : Reg) (v : Word) (s : State) : State :=
  match r with
  | .id => s
  | .cmd => unlessBusy (accept v) s
  | .status => writeStatus v s
  | .inten => writeInten v s
  | .pixcount => unlessBusy (fun s => { s with pixcount := v }) s
  | .msglen => unlessBusy (fun s => { s with msglen := v }) s
  | .keylen => unlessBusy (fun s => { s with keylen := v }) s
  | .capbits => s
  | .hdr => s
  | .pixmax => s
  | .msgmax => s
  | .keymax => s

/-! ### Reset -/

/-- The reset input is asserted (R240, R241): the block holds the state of R38, with new unspecified
values; a command in flight is gone. What the outside world does next is not the block's (log 5). -/
def assertReset (s : State) : State :=
  { State.afterReset s.params (s.drawNo + 1) with rst := true, inputs := s.inputs }

/-- The reset input is released (R240, R242). -/
def releaseReset (s : State) : State := { s with rst := false }

/-! ### The engine's next command -/

/-- `s` with the command word `v` accepted and the engine's step next: what a host's CMD write in an
IDLE block with `rst` released comes to (log 14). -/
def withCommandNext (v : Word) (s : State) : State :=
  { accept v s with rst := false, inputs := .engine :: s.inputs }

end Sys2Proof.Machine
end

