-- ==== Sys2Proof/Machine/Bus.lean ====
section
/-! DEFINITION. The host's bus: address decode, byte lanes, transactions (20_memory R60 to R75). -/

namespace Sys2Proof.Machine

/-- `bus_size` codes (R60). -/
def BusSize.ofCode (c : BitVec 2) : BusSize :=
  if c = 0#2 then .one else if c = 1#2 then .two else if c = 2#2 then .four else .invalid

/-- The number of bytes of a size; the invalid code names none. -/
def BusSize.bytes : BusSize → Nat
  | .one => 1
  | .two => 2
  | .four => 4
  | .invalid => 0

/-- The input ports of R60 as a transaction: `bus_we` is 1 for a write. -/
def transactionOfPorts (we : Bool) (addr : Word) (size : BitVec 2) (wdata : Word) : Transaction :=
  { kind := if we then .write else .read, size := BusSize.ofCode size, addr := addr, wdata := wdata }

/-- The port `bus_err`: 1 for SLVERR (R60). -/
def Response.busErr (r : Response) : Bool :=
  match r.resp with
  | .okay => false
  | .slverr => true

/-- The byte offset of a register (10_state R22). -/
def Reg.offset : Reg → Word
  | .id => 0x000#32
  | .cmd => 0x004#32
  | .status => 0x008#32
  | .inten => 0x00C#32
  | .pixcount => 0x010#32
  | .msglen => 0x014#32
  | .keylen => 0x018#32
  | .capbits => 0x01C#32
  | .hdr => 0x020#32
  | .pixmax => 0x024#32
  | .msgmax => 0x028#32
  | .keymax => 0x02C#32

/-- The registers in the order of their offsets. -/
def allRegs : List Reg :=
  [.id, .cmd, .status, .inten, .pixcount, .msglen, .keylen, .capbits, .hdr, .pixmax, .msgmax, .keymax]

/-- The register at a word-aligned offset in 0x000 - 0x02C (R66). -/
def regAt (addr : Word) : Option Reg := allRegs.find? fun r => r.offset == addr

/-- The block-relative base of a memory's window (R62): KEYW, MSGW or PIXW. -/
def windowBase : MemName → Nat
  | .keymem => 0x00001000
  | .msgmem => 0x10000000
  | .pixmem => 0x80000000

/-- The `n` bytes at `addr` all lie in the active range of the window of `M` (R62, R64). -/
def inWindow (p : Config.Params) (M : MemName) (addr n : Nat) : Bool :=
  decide (windowBase M ≤ addr) && decide (addr + n ≤ windowBase M + memSize p M)

/-- What a mapped, legal access reaches. -/
inductive Target where
  | reg (r : Reg)
  | window (M : MemName) (offset : Nat)
  deriving DecidableEq, Repr

/-- The window an aligned access of `n` bytes lies in, with the memory offset of its first byte. -/
def windowAt (p : Config.Params) (addr n : Nat) : Option Target :=
  (([.keymem, .msgmem, .pixmem] : List MemName).find? fun M => inWindow p M addr n).map
    fun M => .window M (addr - windowBase M)

/-- The address decode (R62, R64 to R67): what a transaction reaches; none is a bus error. -/
def target (p : Config.Params) (t : Transaction) : Option Target :=
  match t.size with
  | .invalid => none
  | .four =>
    match regAt t.addr with
    | some r => some (.reg r)
    | none => if t.addr.toNat % 4 = 0 then windowAt p t.addr.toNat 4 else none
  | .two => if t.addr.toNat % 2 = 0 then windowAt p t.addr.toNat 2 else none
  | .one => windowAt p t.addr.toNat 1

/-- `rdata = sum over i of mem(a+i) << 8i`: bytes on little-endian lanes (R63). -/
def laneWord : List Byte → Nat
  | [] => 0
  | b :: bs => b.toNat + 256 * laneWord bs

/-- `wdata[8i+7 : 8i]` for `i = 0 .. n-1` (R63). -/
def laneBytes (wdata : Word) (n : Nat) : List Byte :=
  (List.range n).map fun i => wdata.extractLsb' (8 * i) 8

/-- A response with an OKAY. -/
def okay (rdata : Word) : Response := { resp := .okay, rdata := rdata }

/-- The response to a bus-errored transaction: its `rdata` is 0 (R68). -/
def slverr : Response := { resp := .slverr, rdata := 0#32 }

/-- A window READ of `n` bytes (R63), refused while BUSY (R74). -/
def windowRead (M : MemName) (a n : Nat) (s : State) : Response × State :=
  if s.busy then (okay 0#32, setHazard s)
  else (okay (BitVec.ofNat 32 (laneWord (memReadList M a n s))), s)

/-- A window WRITE of `n` bytes (R63), refused while BUSY (R75). `rdata` is 0 for a WRITE (R61). -/
def windowWrite (M : MemName) (a n : Nat) (wdata : Word) (s : State) : Response × State :=
  if s.busy then (okay 0#32, setHazard s)
  else (okay 0#32, memWriteList M a (laneBytes wdata n) s)

/-- One host transaction: its response and the state after it (R61, R63 to R75). The address decode
comes before the BUSY rules (R68). -/
def transact (t : Transaction) (s : State) : Response × State :=
  match target s.params t with
  | none => (slverr, s)
  | some (.reg r) =>
    match t.kind with
    | .read => (okay (readReg r s), s)
    | .write => (okay 0#32, writeReg r t.wdata s)
  | some (.window M a) =>
    match t.kind with
    | .read => windowRead M a t.size.bytes s
    | .write => windowWrite M a t.size.bytes t.wdata s

/-- A host transaction as a step: its response stands on the bus afterwards (log 6). -/
def hostStep (t : Transaction) (s : State) : State :=
  { (transact t s).2 with response := some (transact t s).1 }

end Sys2Proof.Machine
end

