-- ==== Sys2Proof/Machine/Operands.lean ====
section
/-! DEFINITION. The operands a command reads (20_memory R73): the three length registers, the
message, the key, the bit plane, and the range checks on them (60_exceptions R214). -/

namespace Sys2Proof.Machine

/-- `P = reg[PIXCOUNT]`. -/
def State.P (s : State) : Nat := s.pixcount.toNat

/-- `L = reg[MSGLEN]`. -/
def State.L (s : State) : Nat := s.msglen.toNat

/-- `K = reg[KEYLEN]`. -/
def State.K (s : State) : Nat := s.keylen.toNat

/-- The message `MSGMEM[0..L)` (R35). -/
def message (s : State) : List Byte := memReadList .msgmem 0 s.L s

/-- The key `KEYMEM[0..K)` (R36, R123). -/
def keyBytes (s : State) : List Byte := memReadList .keymem 0 s.K s

/-- EMBED's BAD_PARAM condition (R151, R214). -/
def embedOutOfRange (s : State) : Bool :=
  decide (s.P > s.params.pixMax) || decide (s.L > s.params.msgMax) || decide (s.K > s.params.keyMax)

/-- EXTRACT's BAD_PARAM condition (R161, R214). -/
def extractOutOfRange (s : State) : Bool :=
  decide (s.P > s.params.pixMax) || decide (s.K > s.params.keyMax)

/-- MIX's BAD_PARAM condition (R191, R214). -/
def mixOutOfRange (s : State) : Bool :=
  decide (s.L > s.params.msgMax) || decide (s.K > s.params.keyMax)

/-- EMBED's payload (R152). -/
def embedPayload (s : State) : BitString := payloadBits s.msglen (message s)

/-- EMBED's keyed payload (R153). -/
def embedEncoded (s : State) : BitString := xorKey (keyBytes s) (embedPayload s)

/-- EXTRACT's scan: one bit per usable channel of the whole buffer (R162). -/
def extractedBits (s : State) : BitString :=
  (List.range (3 * s.P)).map fun i => (memRead .pixmem (chan i) s).getLsbD 0

/-- EXTRACT's decoded bits (R162). -/
def decodedBits (s : State) : BitString := xorKey (keyBytes s) (extractedBits s)

/-- EXTRACT's declared length `D` (R164). -/
def declaredLength (s : State) : Nat := declaredByteLength (decodedBits s)

/-- EXTRACT's output bytes for a declared length `d` (R166). -/
def extractOutput (d : Nat) (s : State) : List Byte :=
  bitsToBytes (slice (decodedBits s) 32 (32 + 8 * d))

end Sys2Proof.Machine
end

