-- ==== Sys2Proof/Machine/Codec.lean ====
section
/-! DEFINITION. EMBED and EXTRACT (41_codec R150 to R168). -/

namespace Sys2Proof.Machine

/-- EMBED's write walk from element `i` on (R154): bit 0 of each channel byte takes the next bit. -/
def embedWalk (i : Nat) : BitString → State → State
  | [], s => s
  | b :: bs, s =>
    embedWalk (i + 1) bs
      (memWrite .pixmem (chan i) (replaceLsb (memRead .pixmem (chan i) s) b) s)

/-- EMBED (R150 to R154). -/
def execEmbed (s : State) : Host.Outcome State Fault Refusal :=
  if embedOutOfRange s then .next (complete .badParam s)
  else if 32 + 8 * s.L > capacityBits s.P then .next (complete .capacityExceeded s)
  else .next (complete .ok (embedWalk 0 (embedEncoded s) s))

/-- EXTRACT's two writes on success (R166): MSGMEM[0..D) and MSGLEN. -/
def extractStore (d : Nat) (s : State) : State :=
  { memWriteList .msgmem 0 (extractOutput d s) s with msglen := BitVec.ofNat 32 d }

/-- `reg[HDR] <- D` (R164). -/
def writeHdr (d : Nat) (s : State) : State := { s with hdr := BitVec.ofNat 32 d }

/-- EXTRACT (R160 to R166). The test against MSG_MAX cannot fail under R8 (R166, log 9). -/
def execExtract (s : State) : Host.Outcome State Fault Refusal :=
  if extractOutOfRange s then .next (complete .badParam s)
  else if capacityBits s.P < 32 then .next (complete .noMsgTooSmall s)
  else if declaredLength s = 0 ∨ 32 + 8 * declaredLength s > capacityBits s.P then
    .next (complete .noMsgBadLength (writeHdr (declaredLength s) s))
  else if declaredLength s > s.params.msgMax then .fault .engineOffsetOutsideMemory
  else .next (complete .ok (extractStore (declaredLength s) (writeHdr (declaredLength s) s)))

end Sys2Proof.Machine
end

