-- ==== Sys2Proof/Machine/Control.lean ====
section
/-! DEFINITION. NOP and the operation ILLEGAL (42_mixer_control R195, R197). -/

namespace Sys2Proof.Machine

/-- NOP (R195): `finish OK`. -/
def execNop (s : State) : Host.Outcome State Fault Refusal := .next (complete .ok s)

/-- ILLEGAL (R197): `raise ILLEGAL_CMD`. No constructor of Instr stands for it (log 10). -/
def execIllegal (s : State) : Host.Outcome State Fault Refusal := .next (complete .illegalCmd s)

end Sys2Proof.Machine
end

