-- ==== Sys2Proof/Machine/Mixer.lean ====
section
/-! DEFINITION. MIX: the keystream mixer alone (42_mixer_control R190 to R194). -/

namespace Sys2Proof.Machine

/-- One pass of MIX's loop: `MSGMEM[j] := MSGMEM[j] XOR KEYMEM[j mod K]` (R190). -/
def mixByte (k j : Nat) (s : State) : State :=
  memWrite .msgmem j (memRead .msgmem j s ^^^ memRead .keymem (j % k) s) s

/-- MIX's loop over `n` bytes from byte `j` on (R190, R193). -/
def mixLoop (k : Nat) : (n j : Nat) → State → State
  | 0, _, s => s
  | n + 1, j, s => mixLoop k n (j + 1) (mixByte k j s)

/-- MIX (R190 to R193). -/
def execMix (s : State) : Host.Outcome State Fault Refusal :=
  if mixOutOfRange s then .next (complete .badParam s)
  else if s.K = 0 then .next (complete .ok s)
  else .next (complete .ok (mixLoop s.K s.L 0 s))

end Sys2Proof.Machine
end

