-- ==== Sys2Proof/Machine/Engine.lean ====
section
/-! DEFINITION. The engine's step (60_exceptions R212), what each event does (00_scope R3), and the
order of a transaction and a completion that fall in one clock cycle (R216). -/

namespace Sys2Proof.Machine

/-- The engine's one step: enabled exactly when BUSY, it performs the rule of `eng.op` (R212). While
IDLE the block does nothing (R223). -/
def engineStep (s : State) : Host.Outcome State Fault Refusal :=
  match s.engState with
  | .idle => .next s
  | .busy =>
    match s.engOp with
    | .command i => exec i s
    | .illegal => execIllegal s

/-- A host transaction: refused while `rst` is asserted (R240, 93 item 4). -/
def hostEvent (t : Transaction) (s : State) : Host.Outcome State Fault Refusal :=
  if s.rst then .refused .transactionDuringReset else .next (hostStep t s)

/-- What one event does. -/
def eventStep (e : Event) (s : State) : Host.Outcome State Fault Refusal :=
  match e with
  | .host t => hostEvent t s
  | .engine => engineStep s
  | .assertReset => .next (assertReset s)
  | .releaseReset => .next (releaseReset s)

/-- The next event leaves `inputs`; when none is left the engine takes its step, so that a state
that stays BUSY is never final (R248, log 4). -/
def nextStep (s : State) : Host.Outcome State Fault Refusal :=
  match s.inputs with
  | [] => engineStep s
  | e :: rest => eventStep e { s with inputs := rest }

/-- Whether a transaction that falls in the clock cycle of a completion goes first (R216): a write
that clears DONE does (a), a CMD write does not (b), and for every other transaction the
implementation's choice stands (log 13). -/
def transactionFirst (t : Transaction) (choice : Bool) (s : State) : Bool :=
  match t.kind, target s.params t with
  | .write, some (.reg .status) => if t.wdata.getLsbD 1 then true else choice
  | .write, some (.reg .cmd) => false
  | _, _ => choice

/-- The outcome of a completion and a transaction in one clock cycle (R216): "the result of some
order of the two steps". No step of the model uses it. -/
def sameCycle (t : Transaction) (choice : Bool) (s : State) : Host.Outcome State Fault Refusal :=
  if transactionFirst t choice s then
    match hostEvent t s with
    | .next s' => engineStep s'
    | .fault f => .fault f
    | .refused r => .refused r
  else
    match engineStep s with
    | .next s' => hostEvent t s'
    | .fault f => .fault f
    | .refused r => .refused r

end Sys2Proof.Machine
end

