-- ==== Sys2Proof/Machine/Step.lean ====
section
/-! DEFINITION. One step of the machine, and a state whose next step runs a given command word. -/

namespace Sys2Proof.Machine

/-- One step: the next event of `inputs`, or the engine's step (Engine.lean). -/
def step (s : State) : Host.Outcome State Fault Refusal := nextStep s

/-- `s` with the command word of a row of spec/opcode_table.json where the engine takes its next
command from, `eng.op`, and the engine's step next (log 14). -/
def State.withFetchWord (s : State) (nbits w : Nat) : State := withCommandNext (tableWord nbits w) s

end Sys2Proof.Machine
end

