-- ==== Sys2Proof/Machine/HostProgram.lean ====
section
/-! DEFINITION. The host-access notation of 30_encoding R99 to R101: how a line of a host program
becomes a transaction, and the host's own control flow. It is the host's, not the block's: no step of
the machine uses it (log 12). -/

namespace Sys2Proof.Machine

/-- `sw ADDR, DATA` (R99). -/
def sw (addr data : Word) : Transaction := { kind := .write, size := .four, addr := addr, wdata := data }

/-- `sh ADDR, DATA` (R99). -/
def sh (addr data : Word) : Transaction := { kind := .write, size := .two, addr := addr, wdata := data }

/-- `sb ADDR, DATA` (R99). -/
def sb (addr data : Word) : Transaction := { kind := .write, size := .one, addr := addr, wdata := data }

/-- `lw ADDR` (R99). -/
def lw (addr : Word) : Transaction := { kind := .read, size := .four, addr := addr, wdata := 0#32 }

/-- `lh ADDR` (R99). -/
def lh (addr : Word) : Transaction := { kind := .read, size := .two, addr := addr, wdata := 0#32 }

/-- `lb ADDR` (R99). -/
def lb (addr : Word) : Transaction := { kind := .read, size := .one, addr := addr, wdata := 0#32 }

/-- `SYM+n` for a window symbol (R99). -/
def windowAddr (M : MemName) (n : Nat) : Word := BitVec.ofNat 32 (windowBase M + n)

/-- `cmd X` expands to `sw CMD, <word of X>` (R100). -/
def cmd (i : Instr) : Transaction := sw Reg.cmd.offset (encode i)

/-- `ack` expands to `sw STATUS, 0x22` (R100). -/
def ack : Transaction := sw Reg.status.offset 0x22#32

/-- `fillb BASE, b0, b1, ...` (R100). -/
def fillb (base : Word) : List Byte → List Transaction
  | [] => []
  | b :: bs => sb base (b.zeroExtend 32) :: fillb (base + 1#32) bs

/-- A line of a host program: a transaction, or `bbs r, n, LABEL` with the label as the number of the
line it stands at (R101). -/
inductive HostLine where
  | issue (t : Transaction)
  | bbs (n line : Nat)
  deriving DecidableEq, Repr

/-- `wait` at line `line`: `L: lw STATUS` and `bbs r, 0, L` (R100). -/
def waitLines (line : Nat) : List HostLine := [.issue (lw Reg.status.offset), .bbs 0 line]

/-- A program's encoding: the transactions it holds (R99); a branch has none (R101). -/
def hostEncoding : List HostLine → List Transaction
  | [] => []
  | .issue t :: ls => t :: hostEncoding ls
  | .bbs _ _ :: ls => hostEncoding ls

/-- Where the host stands: the line it is at, and the data `r` of its last read (R99). -/
structure HostControl where
  line : Nat
  r    : Word
  deriving DecidableEq, Repr

/-- The host carries out one line: a read leaves its data in `r`, `bbs` goes to its label if bit `n`
of `r` is set and to the next line otherwise, and issues no transaction (R101). -/
def hostLine (l : HostLine) (c : HostControl) (s : State) : HostControl × State :=
  match l with
  | .issue t =>
    match t.kind with
    | .read => ({ line := c.line + 1, r := (transact t s).1.rdata }, hostStep t s)
    | .write => ({ c with line := c.line + 1 }, hostStep t s)
  | .bbs n line => ({ c with line := if c.r.getLsbD n then line else c.line + 1 }, s)

end Sys2Proof.Machine
end

