-- ==== Sys2Proof/Safety.lean ====
section
/-! DEFINITION. What a good state and a safe step are, in the terms the statements use. -/

namespace Sys2Proof.Machine

/-- A memory in canonical form, inside its size (10_state R34 to R36). -/
def memoryGood (M : MemName) (s : State) : Prop :=
  Memory.wf (s.cells M) = true ∧ Memory.within (memSize s.params M) (s.cells M) = true

/-- What holds of every state a run of the block can reach: R8's constraints, canonical memories
inside their sizes, no DONE while BUSY (R211: acceptance clears it), and the reset state held while
`rst` is asserted (R240). -/
structure State.Inv (s : State) : Prop where
  params_wf : s.params.wf = true
  memories_good : ∀ M, memoryGood M s
  busy_not_done : s.engState = .busy → s.done = false
  reset_held : s.rst = true →
    s = { State.afterReset s.params s.drawNo with rst := true, inputs := s.inputs }

/-- An outcome is safe if it is no fault. -/
def safeOutcome : Host.Outcome State Fault Refusal → Prop
  | .next _ => True
  | .fault _ => False
  | .refused _ => True

/-- `n` steps of the machine, stopping at the first fault or refusal. -/
def runSteps (n : Nat) (s : State) : Host.Outcome State Fault Refusal :=
  Host.Core.run Sys2Proof.core n s

/-- Two states have the same byte in every place of memory `M`. -/
def sameBytes (M : MemName) (s t : State) : Prop := ∀ a, memRead M a t = memRead M a s

/-- The three operand registers are the same. -/
def sameOperandRegs (s t : State) : Prop :=
  t.pixcount = s.pixcount ∧ t.msglen = s.msglen ∧ t.keylen = s.keylen

/-- The model's own fields, the reset input and the parameters are the same. -/
def sameSurroundings (s t : State) : Prop :=
  t.params = s.params ∧ t.rst = s.rst ∧ t.drawNo = s.drawNo ∧ t.response = s.response ∧
    t.inputs = s.inputs

/-- What a completion with result `c` does to the engine and to STATUS (R212), and what it leaves:
HAZERR, INTEN and `eng.op`. -/
def completedWith (c : Result) (s t : State) : Prop :=
  t.engState = .idle ∧ t.engOp = s.engOp ∧ t.done = true ∧ t.result = c ∧
    t.hazerr = s.hazerr ∧ t.doneie = s.doneie

/-- Only STATUS (and the engine) changed: the command ended with `c` and did nothing else. -/
def onlyStatusChanged (c : Result) (s t : State) : Prop :=
  completedWith c s t ∧ sameOperandRegs s t ∧ t.hdr = s.hdr ∧ sameSurroundings s t ∧
    ∀ M, sameBytes M s t

/-- `keystream` "with `K = 0` means the all-zero stream" (41_codec R179): its element `i`. -/
def keystreamBit (key : List Byte) (i : Nat) : Bool :=
  if key.length = 0 then false else (keystream key (i + 1)).getD i false

/-- A legal register access: 4 bytes wide at a word-aligned offset in 0x000 - 0x02C (20_memory R66). -/
def legalRegister (t : Transaction) : Prop :=
  t.size = .four ∧ t.addr.toNat % 4 = 0 ∧ t.addr.toNat ≤ 0x2C

/-- A legal access to the window of `M`: naturally aligned, with every byte in the active range
(20_memory R62, R64). -/
def legalWindow (p : Config.Params) (M : MemName) (t : Transaction) : Prop :=
  t.size ≠ .invalid ∧ t.addr.toNat % t.size.bytes = 0 ∧
    ∀ i < t.size.bytes, ∃ a < memSize p M, t.addr.toNat + i = windowBase M + a

/-- The memory offset of the first byte of a window access (20_memory R62). -/
def windowOffset (M : MemName) (t : Transaction) : Nat := t.addr.toNat - windowBase M

/-- No field but memory bytes and the engine's own is looked at: two states that read alike. -/
def readAlike (s t : State) : Prop :=
  (∀ r, readReg r t = readReg r s) ∧ (∀ M, sameBytes M s t) ∧ t.engState = s.engState ∧
    t.engOp = s.engOp

end Sys2Proof.Machine
end

