-- ==== Sys2Proof/Certificates/Slice0/Obligations.lean ====
section
/-! DEFINITION. The statements for the provers, from the spec's numbered rules. -/

open Sys2Proof Sys2Proof.Machine

/-! ### Reset -/

/-- 10_state R38: the state after every reset. Bytes and `eng.op`, which the rule leaves unspecified,
are free values (log 2, log 3). -/
def Obligations.ResetStateHoldsSpecValues : Prop :=
  (∀ (p : Config.Params) (d : Nat),
    (State.afterReset p d).engState = .idle ∧
    (State.afterReset p d).engOp = Config.resetOp d ∧
    readReg .id (State.afterReset p d) = 0x53544731#32 ∧
    readReg .status (State.afterReset p d) = 0#32 ∧
    readReg .inten (State.afterReset p d) = 0#32 ∧
    readReg .pixcount (State.afterReset p d) = 0#32 ∧
    readReg .msglen (State.afterReset p d) = 0#32 ∧
    readReg .keylen (State.afterReset p d) = 0#32 ∧
    readReg .hdr (State.afterReset p d) = 0#32 ∧
    readReg .capbits (State.afterReset p d) = 0#32 ∧
    readReg .pixmax (State.afterReset p d) = BitVec.ofNat 32 p.pixMax ∧
    readReg .msgmax (State.afterReset p d) = BitVec.ofNat 32 p.msgMax ∧
    readReg .keymax (State.afterReset p d) = BitVec.ofNat 32 p.keyMax ∧
    (∀ M a, memRead M a (State.afterReset p d) = Config.resetByte d M a) ∧
    irq (State.afterReset p d) = false) ∧
  ∀ s : State, releaseReset (assertReset s) =
    { State.afterReset s.params (s.drawNo + 1) with inputs := s.inputs }

/-- The invariant holds after reset, in every configuration that R8 allows and in the reference
configuration that `State.reset` takes (log 1). -/
def Obligations.ResetStateMeetsInvariant : Prop :=
  (∀ (p : Config.Params) (d : Nat), p.wf = true → (State.afterReset p d).Inv) ∧ State.reset.Inv

/-- Every step keeps the invariant: R8's parameters, memories in canonical form inside their sizes
(R34 to R36, R166), DONE = 0 while BUSY (R211), the reset state held while `rst` is asserted (R240). -/
def Obligations.EveryStepKeepsInvariant : Prop :=
  ∀ s t : State, s.Inv → step s = .next t → t.Inv

/-- With R8's parameters every step answers a next state, but for the one refusal: a host transaction
while `rst` is asserted (R240, 93 item 4). -/
def Obligations.StepAnswersUnlessTransactionDuringReset : Prop :=
  ∀ s : State, s.params.wf = true →
    ((s.rst = true ∧ ∃ t rest, s.inputs = .host t :: rest) →
      step s = .refused .transactionDuringReset) ∧
    (¬ (s.rst = true ∧ ∃ t rest, s.inputs = .host t :: rest) →
      ∃ t, step s = .next t ∧ t.params = s.params)

/-- 70_reset R240: a reset abandons the command in flight. However many times the engine's turn comes
while `rst` is asserted, DONE and irq stay 0, and the release leaves the state of R38. -/
def Obligations.ResetAbandonsCommandInFlight : Prop :=
  ∀ (s : State) (k : Nat) (rest : List Event),
    s.inputs = .assertReset :: (List.replicate k .engine ++ .releaseReset :: rest) →
    (∀ j ≤ k, ∃ t, runSteps (j + 1) s = .next t ∧ t.rst = true ∧ t.engState = .idle ∧
      t.done = false ∧ irq t = false) ∧
    runSteps (k + 2) s = .next { State.afterReset s.params (s.drawNo + 1) with inputs := rest }

/-- 70_reset R242: after reset no command runs by itself, and the first transaction may be a CMD
write, which is accepted. -/
def Obligations.ReadyAfterReset : Prop :=
  ∀ (p : Config.Params) (d : Nat),
    step (State.afterReset p d) = .next (State.afterReset p d) ∧
    (State.afterReset p d).doneie = false ∧
    ∀ (v : Word) (rest : List Event), ∃ t,
      step { State.afterReset p d with inputs := .host (sw Reg.cmd.offset v) :: rest } = .next t ∧
      t.engState = .busy ∧ t.engOp = decodeOp v ∧ t.inputs = rest ∧
      t.response = some { resp := .okay, rdata := 0#32 }

/-! ### Acceptance, completion and decoding -/

/-- A step runs the command that the engine has accepted: `exec` of the decoded command, on the state
with the event consumed. An IDLE engine's turn changes nothing, and a host transaction is `hostStep`. -/
def Obligations.StepRunsTheDecodedCommand : Prop :=
  (∀ (s : State) (w : Nat) (i : Instr), decodeTableWord 32 w = some i →
    step (s.withFetchWord 32 w) =
      exec i { s with engOp := .command i, engState := .busy, done := false, rst := false }) ∧
  (∀ (s : State) (i : Instr), s.engState = .busy → s.engOp = .command i →
    (s.inputs = [] → step s = exec i s) ∧
    ∀ rest, s.inputs = .engine :: rest → step s = exec i { s with inputs := rest }) ∧
  (∀ s : State, s.engState = .idle →
    (s.inputs = [] → step s = .next s) ∧
    ∀ rest, s.inputs = .engine :: rest → step s = .next { s with inputs := rest }) ∧
  ∀ (s : State) (t : Transaction) (rest : List Event), s.rst = false → s.inputs = .host t :: rest →
    step s = .next (hostStep t { s with inputs := rest })

/-- 60_exceptions R211: a CMD write that finds the engine IDLE is accepted, whatever its word and
whatever the operands; one that finds it BUSY is not. -/
def Obligations.IdleCommandWriteIsAccepted : Prop :=
  (∀ (s : State) (v : Word), s.engState = .idle →
    transact (sw Reg.cmd.offset v) s =
      ({ resp := .okay, rdata := 0#32 },
        { s with engOp := decodeOp v, engState := .busy, done := false }) ∧
    irq (transact (sw Reg.cmd.offset v) s).2 = false) ∧
  (∀ (s : State) (v : Word), s.engState = .busy →
    transact (sw Reg.cmd.offset v) s =
      ({ resp := .okay, rdata := 0#32 }, { s with hazerr := true })) ∧
  decodeOp 0#32 = .command .nop ∧ decodeOp 1#32 = .command .embed ∧
  decodeOp 2#32 = .command .extract ∧ decodeOp 3#32 = .command .mix ∧
  ∀ v : Word, 4 ≤ v.toNat → decodeOp v = .illegal

/-- 42_mixer_control R197: a word with RSV != 0 is accepted like any command, completes with
ILLEGAL_CMD and nothing else, and does not lock the block. -/
def Obligations.IllegalWordCompletesWithIllegalCmd : Prop :=
  ∀ (s : State) (v : Word), s.engState = .idle → v.extractLsb' 2 30 ≠ 0#30 →
    (transact (sw Reg.cmd.offset v) s).2 =
      { s with engOp := .illegal, engState := .busy, done := false } ∧
    engineStep (transact (sw Reg.cmd.offset v) s).2 =
      .next { s with engOp := .illegal, engState := .idle, done := true, result := .illegalCmd } ∧
    (s.hazerr = false → statusWord
      { s with engOp := .illegal, engState := .idle, done := true, result := .illegalCmd } =
        0x12#32) ∧
    ∀ w : Word, (transact (sw Reg.cmd.offset w)
      { s with engOp := .illegal, engState := .idle, done := true, result := .illegalCmd }).2.engOp =
        decodeOp w

/-- Sanity: the words of 30_encoding R91 and three illegal words of 95_test_vectors. -/
def Obligations.CommandWordsDecodeAsListed : Prop :=
  decode 0x00000000#32 = .ok .nop ∧ decode 0x00000001#32 = .ok .embed ∧
  decode 0x00000002#32 = .ok .extract ∧ decode 0x00000003#32 = .ok .mix ∧
  decode 0x00000004#32 = .error (.reservedBitsSet 1#30) ∧
  decode 0xFFFFFFFF#32 = .error (.reservedBitsSet 0x3FFFFFFF#30) ∧
  decode 0x80000001#32 = .error (.reservedBitsSet 0x20000000#30) ∧
  decodeBytes [0x02#8, 0x00#8, 0x00#8, 0x00#8] = .ok (.extract, [])

/-- 30_encoding R91 and R92: the four words are the only legal ones, each stands for its command, and
every word with RSV != 0 is illegal; on the bus lanes too. -/
def Obligations.DecodeAndEncodeAgree : Prop :=
  (∀ (w : Word) (i : Instr), decode w = .ok i ↔ w = encode i) ∧
  (encode .nop = 0x00000000#32 ∧ encode .embed = 0x00000001#32 ∧
    encode .extract = 0x00000002#32 ∧ encode .mix = 0x00000003#32) ∧
  (∀ w : Word, w.extractLsb' 2 30 ≠ 0#30 ↔ decodeOp w = .illegal) ∧
  ∀ (w : Word) (rest : List Byte) (i : Instr),
    decodeBytes (bytesOfWord w ++ rest) = .ok (i, rest) ↔ decode w = .ok i

/-- 42_mixer_control R195: NOP. -/
def Obligations.NopCompletesWithOkOnly : Prop :=
  ∀ s : State,
    exec .nop s = .next { s with result := .ok, done := true, engState := .idle } ∧
    (s.hazerr = false → s.doneie = true →
      statusWord { s with result := .ok, done := true, engState := .idle } = 0x2#32 ∧
      irq { s with result := .ok, done := true, engState := .idle } = true)

/-! ### MIX -/

/-- 42_mixer_control R193: MIX in range with a key. -/
def Obligations.MixXorsMessageWithRepeatedKey : Prop :=
  ∀ s : State, s.L ≤ s.params.msgMax → s.K ≤ s.params.keyMax → 1 ≤ s.K →
    ∃ t, exec .mix s = .next t ∧ completedWith .ok s t ∧ sameOperandRegs s t ∧ t.hdr = s.hdr ∧
      sameSurroundings s t ∧
      memReadList .msgmem 0 s.L t = bitsToBytes (xorKey (keyBytes s) (bytesToBits (message s))) ∧
      (∀ j < s.L, memRead .msgmem j t = memRead .msgmem j s ^^^ memRead .keymem (j % s.K) s) ∧
      (∀ j, s.L ≤ j → memRead .msgmem j t = memRead .msgmem j s) ∧
      sameBytes .pixmem s t ∧ sameBytes .keymem s t

/-- 42_mixer_control R192: MIX without a key. -/
def Obligations.MixWithoutKeyChangesNothing : Prop :=
  ∀ s : State, s.L ≤ s.params.msgMax → s.K = 0 →
    ∃ t, exec .mix s = .next t ∧ onlyStatusChanged .ok s t

/-- 42_mixer_control R191: MIX's range check. -/
def Obligations.MixRangeCheck : Prop :=
  ∀ s : State, s.L > s.params.msgMax ∨ s.K > s.params.keyMax →
    ∃ t, exec .mix s = .next t ∧ onlyStatusChanged .badParam s t

/-- 42_mixer_control R194 (b): a second MIX with the same MSGLEN, KEYLEN and key, on the MSGMEM that
the first one left, restores MSGMEM. -/
def Obligations.MixTwiceRestoresMessage : Prop :=
  ∀ s : State, ∃ t, exec .mix s = .next t ∧
    ∀ s' : State, s'.params = t.params → s'.msglen = t.msglen → s'.keylen = t.keylen →
      (∀ a < s.K, memRead .keymem a s' = memRead .keymem a t) → sameBytes .msgmem t s' →
      ∃ u, exec .mix s' = .next u ∧ u.result = t.result ∧ sameBytes .msgmem s u

/-! ### EMBED -/

/-- 41_codec R151: EMBED's range check. -/
def Obligations.EmbedRangeCheck : Prop :=
  ∀ s : State, s.P > s.params.pixMax ∨ s.L > s.params.msgMax ∨ s.K > s.params.keyMax →
    ∃ t, exec .embed s = .next t ∧ onlyStatusChanged .badParam s t

/-- 41_codec R176: the capacity boundary, for operands in range. -/
def Obligations.EmbedCapacityBoundary : Prop :=
  ∀ s : State, s.P ≤ s.params.pixMax → s.L ≤ s.params.msgMax → s.K ≤ s.params.keyMax →
    (32 + 8 * s.L = 3 * s.P → ∃ t, exec .embed s = .next t ∧ completedWith .ok s t) ∧
    (32 + 8 * s.L > 3 * s.P →
      ∃ t, exec .embed s = .next t ∧ onlyStatusChanged .capacityExceeded s t)

/-- 41_codec R154 and R155: EMBED in range and within capacity. The bytes stored to are those at
`chan i` for `i < 32 + 8*L`; every other byte, and bits [7:1] of those, are unchanged. -/
def Obligations.EmbedWritesKeyedPayload : Prop :=
  ∀ s : State, s.P ≤ s.params.pixMax → s.L ≤ s.params.msgMax → s.K ≤ s.params.keyMax →
    32 + 8 * s.L ≤ 3 * s.P →
    ∃ t, exec .embed s = .next t ∧ completedWith .ok s t ∧ sameOperandRegs s t ∧ t.hdr = s.hdr ∧
      sameSurroundings s t ∧
      (∀ i < 32 + 8 * s.L,
        (memRead .pixmem (chan i) t).getLsbD 0 =
          (xorKey (keyBytes s) (be32bits s.msglen ++ bytesToBits (message s))).getD i false ∧
        ∀ b, 1 ≤ b → (memRead .pixmem (chan i) t).getLsbD b = (memRead .pixmem (chan i) s).getLsbD b) ∧
      (∀ a, (∀ i < 32 + 8 * s.L, a ≠ chan i) → memRead .pixmem a t = memRead .pixmem a s) ∧
      (∀ p c, 32 + 8 * s.L ≤ 3 * p → memRead .pixmem (4 * p + c) t = memRead .pixmem (4 * p + c) s) ∧
      (∀ p, memRead .pixmem (4 * p + 3) t = memRead .pixmem (4 * p + 3) s) ∧
      sameBytes .msgmem s t ∧ sameBytes .keymem s t

/-- 41_codec R153: the keyed payload, and the same byte by byte. Message byte `j` is keyed with key
byte `(j + 4) mod K`. -/
def Obligations.EmbedKeyedPayloadBytes : Prop :=
  ∀ s : State,
    embedEncoded s = xorKey (keyBytes s) (be32bits s.msglen ++ bytesToBits (message s)) ∧
    (1 ≤ s.K →
      embedEncoded s = bytesToBits ((List.range (4 + s.L)).map fun j =>
        ([s.msglen.extractLsb' 24 8, s.msglen.extractLsb' 16 8, s.msglen.extractLsb' 8 8,
          s.msglen.extractLsb' 0 8] ++ message s).getD j 0#8 ^^^ memRead .keymem (j % s.K) s) ∧
      ∀ j < s.L, slice (embedEncoded s) (32 + 8 * j) (40 + 8 * j) =
        byteBits (memRead .msgmem j s ^^^ memRead .keymem ((j + 4) % s.K) s))

/-- 41_codec R156 (a), (b) and (c), for operands in range: an empty message needs 11 pixels, an exact
fit writes every usable channel, and one pixel fewer, or none, fails. -/
def Obligations.EmbedEmptyAndExactFit : Prop :=
  ∀ s : State, s.P ≤ s.params.pixMax → s.L ≤ s.params.msgMax → s.K ≤ s.params.keyMax →
    ∃ t, exec .embed s = .next t ∧
      (s.L = 0 → 11 ≤ s.P → t.result = .ok) ∧
      (s.L = 0 → s.P ≤ 10 → t.result = .capacityExceeded) ∧
      (s.P = 0 → t.result = .capacityExceeded) ∧
      (32 + 8 * s.L = 3 * (s.P + 1) → t.result = .capacityExceeded) ∧
      (32 + 8 * s.L = 3 * s.P → t.result = .ok ∧
        ∀ a < 4 * s.P, a % 4 ≠ 3 → ∃ i < 32 + 8 * s.L, a = chan i ∧
          (memRead .pixmem a t).getLsbD 0 = (embedEncoded s).getD i false)

/-- 41_codec R156 (d): a key of zero bytes writes the same PIXMEM as no key. -/
def Obligations.AllZeroKeyEmbedsAsNoKey : Prop :=
  ∀ s : State, s.K ≤ s.params.keyMax → (∀ a < s.K, memRead .keymem a s = 0#8) →
    ∃ t u, exec .embed s = .next t ∧ exec .embed { s with keylen := 0#32 } = .next u ∧
      t.result = u.result ∧ sameBytes .pixmem t u

/-- 41_codec R156 (f): EMBED run twice leaves every memory as one run leaves it. -/
def Obligations.EmbedTwiceLeavesSamePixels : Prop :=
  ∀ s : State, ∃ t u, exec .embed s = .next t ∧ exec .embed t = .next u ∧ u.result = t.result ∧
    ∀ M, sameBytes M t u

/-- 41_codec R150 and R156 (e): EMBED's result and the PIXMEM it leaves depend on its operands alone;
bytes of MSGMEM and KEYMEM beyond `L` and `K`, and every other register, do not matter. -/
def Obligations.EmbedReadsOnlyItsOperands : Prop :=
  ∀ s s' : State, s'.params = s.params → sameOperandRegs s s' →
    (∀ a < s.L, memRead .msgmem a s' = memRead .msgmem a s) →
    (∀ a < s.K, memRead .keymem a s' = memRead .keymem a s) →
    (∀ a, memRead .pixmem a s' = memRead .pixmem a s) →
    ∃ t t', exec .embed s = .next t ∧ exec .embed s' = .next t' ∧ t'.result = t.result ∧
      sameBytes .pixmem t t'

/-! ### EXTRACT -/

/-- 41_codec R161: EXTRACT's range check; MSGLEN does not matter. -/
def Obligations.ExtractRangeCheck : Prop :=
  ∀ s : State, s.P > s.params.pixMax ∨ s.K > s.params.keyMax →
    ∃ t, exec .extract s = .next t ∧ onlyStatusChanged .badParam s t

/-- 41_codec R163: a PixelBuffer of at most 10 pixels holds no length prefix. -/
def Obligations.ExtractTooSmallBuffer : Prop :=
  (∀ p : Nat, 3 * p < 32 ↔ p ≤ 10) ∧
  ∀ s : State, s.P ≤ s.params.pixMax → s.K ≤ s.params.keyMax → 3 * s.P < 32 →
    ∃ t, exec .extract s = .next t ∧ onlyStatusChanged .noMsgTooSmall s t

/-- 41_codec R162: the scan, element by element. -/
def Obligations.ExtractScansEveryUsableChannel : Prop :=
  ∀ s : State,
    (extractedBits s).length = 3 * s.P ∧
    (∀ i < 3 * s.P, (extractedBits s).getD i false = (memRead .pixmem (chan i) s).getLsbD 0) ∧
    decodedBits s = xorKey (keyBytes s) (extractedBits s) ∧
    ∀ i < 3 * s.P, (decodedBits s).getD i false =
      ((memRead .pixmem (chan i) s).getLsbD 0 ^^ keystreamBit (keyBytes s) i)

/-- 41_codec R164 and R165: a declared length of zero, or longer than the data. HDR takes it and
nothing else outside STATUS changes. -/
def Obligations.ExtractRejectsInconsistentLength : Prop :=
  ∀ (s : State) (d : Nat), s.P ≤ s.params.pixMax → s.K ≤ s.params.keyMax → 32 ≤ 3 * s.P →
    d = ∑ k ∈ Finset.range 32, ((decodedBits s).getD k false).toNat * 2 ^ (31 - k) →
    d = 0 ∨ 32 + 8 * d > 3 * s.P →
    ∃ t, exec .extract s = .next t ∧ completedWith .noMsgBadLength s t ∧ sameOperandRegs s t ∧
      t.hdr = BitVec.ofNat 32 d ∧ t.hdr.toNat = d ∧ sameSurroundings s t ∧ ∀ M, sameBytes M s t

/-- 41_codec R166: EXTRACT's success. The bytes stored to are MSGMEM[0..D), which lie in MSGMEM under
R8; MSGLEN and HDR take `D`. -/
def Obligations.ExtractRecoversDeclaredBytes : Prop :=
  ∀ (s : State) (d : Nat), s.params.wf = true → s.P ≤ s.params.pixMax → s.K ≤ s.params.keyMax →
    d = ∑ k ∈ Finset.range 32, ((decodedBits s).getD k false).toNat * 2 ^ (31 - k) →
    1 ≤ d → 32 + 8 * d ≤ 3 * s.P →
    d ≤ s.params.msgMax ∧
    ∃ t, exec .extract s = .next t ∧ completedWith .ok s t ∧ t.msglen.toNat = d ∧ t.hdr.toNat = d ∧
      t.pixcount = s.pixcount ∧ t.keylen = s.keylen ∧ sameSurroundings s t ∧
      memReadList .msgmem 0 d t = bitsToBytes (slice (decodedBits s) 32 (32 + 8 * d)) ∧
      (∀ a, d ≤ a → memRead .msgmem a t = memRead .msgmem a s) ∧
      sameBytes .pixmem s t ∧ sameBytes .keymem s t

/-- 41_codec R168 (b), (c) and (d): buffers of 11 to 13 pixels, and buffers whose usable bits are all
zero or all one, hold no valid message. -/
def Obligations.ExtractUniformAndSmallBuffers : Prop :=
  ∀ s : State, s.P ≤ s.params.pixMax → s.K ≤ s.params.keyMax → 11 ≤ s.P →
    (s.P ≤ 13 → ∃ t, exec .extract s = .next t ∧ t.result = .noMsgBadLength) ∧
    (s.K = 0 → (∀ i < 3 * s.P, (memRead .pixmem (chan i) s).getLsbD 0 = false) →
      ∃ t, exec .extract s = .next t ∧ t.result = .noMsgBadLength ∧ t.hdr = 0#32) ∧
    (s.K = 0 → (∀ i < 3 * s.P, (memRead .pixmem (chan i) s).getLsbD 0 = true) →
      ∃ t, exec .extract s = .next t ∧ t.result = .noMsgBadLength ∧ t.hdr = 0xFFFFFFFF#32)

/-- 41_codec R168 (f): EXTRACT run twice gives the same result and state. -/
def Obligations.ExtractTwiceGivesSameState : Prop :=
  ∀ s : State, s.params.wf = true → ∃ t u, exec .extract s = .next t ∧ exec .extract t = .next u ∧
    readAlike t u ∧ sameSurroundings t u

/-- 41_codec R160: EXTRACT reads neither MSGLEN nor MSGMEM. -/
def Obligations.ExtractReadsNoMessage : Prop :=
  ∀ (s : State) (l : Word) (m : Memory), s.params.wf = true →
    ∃ t t', exec .extract s = .next t ∧ exec .extract { s with msglen := l, msgmem := m } = .next t' ∧
      t'.result = t.result ∧ t'.hdr = t.hdr ∧ sameBytes .pixmem t t' ∧ sameBytes .keymem t t' ∧
      (t.result = .ok → t'.msglen = t.msglen ∧
        ∀ a < t.L, memRead .msgmem a t' = memRead .msgmem a t) ∧
      (t.result ≠ .ok → t'.msglen = l)

/-! ### Properties of the codec -/

/-- 41_codec R175, the round trip: EXTRACT, in any state that still has EMBED's PIXCOUNT, KEYLEN, key
bytes and non-alpha pixel bytes, gives back the message EMBED read. -/
def Obligations.ExtractRecoversEmbeddedMessage : Prop :=
  ∀ s : State, s.params.wf = true → s.P ≤ s.params.pixMax → s.K ≤ s.params.keyMax → 1 ≤ s.L →
    s.L ≤ s.params.msgMax → 32 + 8 * s.L ≤ 3 * s.P →
    ∃ t, exec .embed s = .next t ∧ t.result = .ok ∧
      ∀ s' : State, s'.params = t.params → s'.pixcount = t.pixcount → s'.keylen = t.keylen →
        (∀ a < s.K, memRead .keymem a s' = memRead .keymem a t) →
        (∀ a < 4 * s.P, a % 4 ≠ 3 → memRead .pixmem a s' = memRead .pixmem a t) →
        ∃ u, exec .extract s' = .next u ∧ u.result = .ok ∧ u.msglen = s.msglen ∧ u.hdr = s.msglen ∧
          ∀ j < s.L, memRead .msgmem j u = memRead .msgmem j s

/-- 41_codec R179, key sensitivity: with the pixels EMBED left and any key in range, EXTRACT gives the
embedded message exactly when the two keystreams agree on the payload. -/
def Obligations.MessageComesBackIffKeystreamsAgree : Prop :=
  ∀ s t s' : State, s.params.wf = true → s.P ≤ s.params.pixMax → s.K ≤ s.params.keyMax → 1 ≤ s.L →
    s.L ≤ s.params.msgMax → 32 + 8 * s.L ≤ 3 * s.P → exec .embed s = .next t →
    s'.params = t.params → s'.pixcount = t.pixcount → s'.K ≤ s.params.keyMax →
    (∀ a < 4 * s.P, a % 4 ≠ 3 → memRead .pixmem a s' = memRead .pixmem a t) →
    ((∃ u, exec .extract s' = .next u ∧ u.result = .ok ∧ u.hdr = s.msglen ∧
        ∀ j < s.L, memRead .msgmem j u = memRead .msgmem j s) ↔
      ∀ i < 32 + 8 * s.L, keystreamBit (keyBytes s) i = keystreamBit (keyBytes s') i)

/-- 41_codec R178: an empty message writes the keyed zero prefix and reads back as no message. -/
def Obligations.EmptyMessageReadsBackAsNoMessage : Prop :=
  ∀ s : State, s.P ≤ s.params.pixMax → s.K ≤ s.params.keyMax → s.L = 0 → 11 ≤ s.P →
    ∃ t, exec .embed s = .next t ∧ t.result = .ok ∧
      (∀ i < 32, (memRead .pixmem (chan i) t).getLsbD 0 =
        (xorKey (keyBytes s) (be32bits 0#32)).getD i false) ∧
      (∀ a, (∀ i < 32, a ≠ chan i) → memRead .pixmem a t = memRead .pixmem a s) ∧
      ∀ s' : State, s'.params = t.params → s'.pixcount = t.pixcount → s'.keylen = t.keylen →
        (∀ a < s.K, memRead .keymem a s' = memRead .keymem a t) →
        (∀ a < 4 * s.P, a % 4 ≠ 3 → memRead .pixmem a s' = memRead .pixmem a t) →
        ∃ u, exec .extract s' = .next u ∧ u.result = .noMsgBadLength ∧ u.hdr = 0#32

/-- 41_codec R177: after any command, illegal words included, every alpha byte is unchanged. -/
def Obligations.AlphaBytesAreNeverTouched : Prop :=
  ∀ (s t : State) (p : Nat), engineStep s = .next t →
    memRead .pixmem (4 * p + 3) t = memRead .pixmem (4 * p + 3) s

/-- 60_exceptions R213: every result but OK is all-or-nothing. -/
def Obligations.FailuresChangeNothingElse : Prop :=
  ∀ s t : State, s.engState = .busy → engineStep s = .next t →
    (t.result = .capacityExceeded ∨ t.result = .noMsgTooSmall ∨ t.result = .illegalCmd ∨
      t.result = .badParam → onlyStatusChanged t.result s t) ∧
    (t.result = .noMsgBadLength → completedWith .noMsgBadLength s t ∧ sameOperandRegs s t ∧
      sameSurroundings s t ∧ ∀ M, sameBytes M s t)

/-- 60_exceptions R214 and R215: the one result a command reports, in the order of the checks. -/
def Obligations.ResultIsFirstApplicableCause : Prop :=
  ∀ s : State, s.params.wf = true → s.engState = .busy → ∃ t, engineStep s = .next t ∧
    (s.engOp = .illegal → t.result = .illegalCmd) ∧
    (s.engOp = .command .nop → t.result = .ok) ∧
    (s.engOp = .command .mix → t.result =
      if s.L > s.params.msgMax ∨ s.K > s.params.keyMax then .badParam else .ok) ∧
    (s.engOp = .command .embed → t.result =
      if s.P > s.params.pixMax ∨ s.L > s.params.msgMax ∨ s.K > s.params.keyMax then .badParam
      else if 32 + 8 * s.L > 3 * s.P then .capacityExceeded else .ok) ∧
    (s.engOp = .command .extract → t.result =
      if s.P > s.params.pixMax ∨ s.K > s.params.keyMax then .badParam
      else if 3 * s.P < 32 then .noMsgTooSmall
      else if declaredLength s = 0 ∨ 32 + 8 * declaredLength s > 3 * s.P then .noMsgBadLength
      else .ok)

/-- 10_state R32 and R34 to R36, 60_exceptions R212: what each completion may write. KEYMEM, PIXCOUNT,
KEYLEN, INTEN and HAZERR are written by none. -/
def Obligations.CommandsWriteOnlyTheirTargets : Prop :=
  ∀ s t : State, s.engState = .busy → engineStep s = .next t →
    t.engState = .idle ∧ t.done = true ∧ t.hazerr = s.hazerr ∧ t.doneie = s.doneie ∧
    t.pixcount = s.pixcount ∧ t.keylen = s.keylen ∧ sameSurroundings s t ∧ sameBytes .keymem s t ∧
    (¬ (s.engOp = .command .embed ∧ t.result = .ok) → sameBytes .pixmem s t) ∧
    (¬ ((s.engOp = .command .extract ∨ s.engOp = .command .mix) ∧ t.result = .ok) →
      sameBytes .msgmem s t) ∧
    (¬ (s.engOp = .command .extract ∧ t.result = .ok) → t.msglen = s.msglen) ∧
    (¬ (s.engOp = .command .extract ∧ (t.result = .ok ∨ t.result = .noMsgBadLength)) →
      t.hdr = s.hdr)

/-- 20_memory R73 and 41_codec R180: a command is a function of the state at acceptance. Whatever
transactions `ts` the host issues while the command runs, the completion leaves the same result,
registers and bytes as one straight after acceptance. -/
def Obligations.CompletionIgnoresTransactionsWhileBusy : Prop :=
  ∀ (s : State) (v : Word) (ts : List Transaction) (rest : List Event), s.params.wf = true →
    s.rst = false → s.engState = .idle →
    s.inputs = .host (sw Reg.cmd.offset v) :: (ts.map Event.host ++ .engine :: rest) →
    ∃ t u, runSteps (ts.length + 2) s = .next t ∧ engineStep (accept v s) = .next u ∧
      t.engState = .idle ∧ t.done = true ∧ t.inputs = rest ∧ t.engOp = u.engOp ∧
      t.result = u.result ∧ t.hdr = u.hdr ∧ sameOperandRegs u t ∧ ∀ M, sameBytes M u t

/-- 70_reset R248: an accepted command completes after finitely many steps, unless a reset comes. -/
def Obligations.AcceptedCommandEventuallyCompletes : Prop :=
  ∀ s : State, s.params.wf = true → s.rst = false → s.engState = .busy →
    Event.assertReset ∉ s.inputs →
    ∃ k ≤ s.inputs.length + 1, ∃ t, runSteps k s = .next t ∧ t.engState = .idle ∧ t.done = true

/-! ### Datapath primitives -/

/-- 40_datapath R120, R121 and R122: the two conversions, element by element, and that they are
inverses. -/
def Obligations.BitConversionsAreInverse : Prop :=
  (∀ B : List Byte, (bytesToBits B).length = 8 * B.length ∧
    ∀ j < B.length, ∀ t < 8, (bytesToBits B).getD (8 * j + t) false = (B.getD j 0#8).getLsbD (7 - t)) ∧
  (∀ (n : Nat) (s : BitString), s.length = 8 * n → (bitsToBytes s).length = n ∧
    ∀ j < n, ((bitsToBytes s).getD j 0#8).toNat =
      ∑ t ∈ Finset.range 8, (s.getD (8 * j + t) false).toNat * 2 ^ (7 - t)) ∧
  (∀ B : List Byte, bitsToBytes (bytesToBits B) = B) ∧
  ∀ (n : Nat) (s : BitString), s.length = 8 * n → bytesToBits (bitsToBytes s) = s

/-- 40_datapath R124 and R125: the keystream and the mixer, element by element. -/
def Obligations.MixerXorsRepeatedKeyBits : Prop :=
  (∀ (key : List Byte) (n i : Nat), 1 ≤ key.length → i < n →
    (keystream key n).length = n ∧
    (keystream key n).getD i false = (bytesToBits key).getD (i % (8 * key.length)) false) ∧
  (∀ s : BitString, xorKey [] s = s) ∧
  ∀ (key : List Byte) (s : BitString), (xorKey key s).length = s.length ∧
    (1 ≤ key.length → ∀ i < s.length, (xorKey key s).getD i false =
      (s.getD i false ^^ (keystream key s.length).getD i false))

/-- 40_datapath R126: the mixer is an involution, for every bit string and every key. -/
def Obligations.MixerIsInvolution : Prop :=
  ∀ (key : List Byte) (s : BitString), xorKey key (xorKey key s) = s

/-- 40_datapath R127: the prefix property. -/
def Obligations.MixerActsOnInitialSegments : Prop :=
  (∀ (key : List Byte) (m n : Nat), 1 ≤ key.length → m ≤ n →
    keystream key m = (keystream key n).take m) ∧
  ∀ (key : List Byte) (s t : BitString), (xorKey key (s ++ t)).take s.length = xorKey key s

/-- 40_datapath R128: the byte form of the mixer. -/
def Obligations.MixerByteForm : Prop :=
  ∀ key B : List Byte, 1 ≤ key.length →
    xorKey key (bytesToBits B) = bytesToBits
      ((List.range B.length).map fun j => B.getD j 0#8 ^^^ key.getD (j % key.length) 0#8)

/-- 40_datapath R129: keys that are equal up to repetition collide, and a key of zero bytes is no
key. -/
def Obligations.RepeatedKeysCollide : Prop :=
  (∀ (k1 k2 : List Byte), 1 ≤ k1.length → 1 ≤ k2.length →
    (∀ i, (bytesToBits k1).getD (i % (8 * k1.length)) false =
      (bytesToBits k2).getD (i % (8 * k2.length)) false) →
    ∀ n, keystream k1 n = keystream k2 n) ∧
  (∀ n, keystream [0x6B#8] n = keystream [0x6B#8, 0x6B#8] n) ∧
  (∀ m n, 1 ≤ m → keystream (List.replicate m 0#8) n = List.replicate n false) ∧
  ∀ (m : Nat) (s : BitString), xorKey (List.replicate m 0#8) s = s

/-- 40_datapath R130: the channel walk and its three properties. -/
def Obligations.ChannelWalkCoversUsableBytes : Prop :=
  (∀ i, chan i = 4 * (i / 3) + i % 3) ∧
  (∀ i j, i < j → chan i < chan j) ∧
  (∀ i, chan i % 4 ≠ 3) ∧
  ∀ p a, (∃ i < 3 * p, chan i = a) ↔ a < 4 * p ∧ a % 4 ≠ 3

/-- 30_encoding R95 and R98: the length prefix and its parse, which are inverses. -/
def Obligations.LengthPrefixRoundTrip : Prop :=
  (∀ v : Word, (be32bits v).length = 32 ∧ ∀ k < 32, (be32bits v).getD k false = v.getLsbD (31 - k)) ∧
  (∀ d : BitString, 32 ≤ d.length →
    declaredByteLength d = ∑ k ∈ Finset.range 32, (d.getD k false).toNat * 2 ^ (31 - k) ∧
    declaredByteLength d ≤ 2 ^ 32 - 1) ∧
  ∀ (v : Word) (s : BitString), declaredByteLength (be32bits v ++ s) = v.toNat

/-! ### The host's bus -/

/-- 20_memory R67 and R68: exactly the accesses that are neither a legal register access nor a legal
window access get SLVERR, whether BUSY or not, with rdata 0 and no change of state. -/
def Obligations.BusErrorsChangeNothing : Prop :=
  ∀ (s : State) (t : Transaction), s.params.wf = true →
    ((transact t s).1.resp = .slverr ↔
      ¬ legalRegister t ∧ ¬ ∃ M, legalWindow s.params M t) ∧
    ((transact t s).1.resp = .slverr → (transact t s).2 = s ∧ (transact t s).1.rdata = 0#32)

/-- 20_memory R63 and R64: a legal window access moves its bytes on little-endian lanes. A WRITE
stores to the bytes at `windowOffset M t + i` for `i` below the size and to nothing else. -/
def Obligations.WindowAccessIsLittleEndian : Prop :=
  ∀ (s : State) (t : Transaction) (M : MemName), s.params.wf = true → s.engState = .idle →
    legalWindow s.params M t →
    (t.kind = .read → (transact t s).2 = s ∧ (transact t s).1.resp = .okay ∧
      (transact t s).1.rdata.toNat = ∑ i ∈ Finset.range t.size.bytes,
        (memRead M (windowOffset M t + i) s).toNat * 2 ^ (8 * i)) ∧
    (t.kind = .write → (transact t s).1 = { resp := .okay, rdata := 0#32 } ∧
      (∀ i < t.size.bytes,
        memRead M (windowOffset M t + i) (transact t s).2 = t.wdata.extractLsb' (8 * i) 8) ∧
      (∀ a, (∀ i < t.size.bytes, a ≠ windowOffset M t + i) →
        memRead M a (transact t s).2 = memRead M a s) ∧
      (∀ N, N ≠ M → sameBytes N s (transact t s).2) ∧
      (∀ r, readReg r (transact t s).2 = readReg r s) ∧
      (transact t s).2.engState = s.engState ∧ (transact t s).2.engOp = s.engOp ∧
      sameSurroundings s (transact t s).2)

/-- 20_memory R74 and R75: while BUSY a window access returns 0, stores nothing and sets HAZERR. -/
def Obligations.WindowAccessWhileBusyIsRefused : Prop :=
  ∀ (s : State) (t : Transaction) (M : MemName), s.params.wf = true → s.engState = .busy →
    legalWindow s.params M t →
    transact t s = ({ resp := .okay, rdata := 0#32 }, { s with hazerr := true })

/-- 10_state R23: the BUSY write rule. From acceptance on, and whatever the host does while BUSY, MSGLEN
and HDR read as before the command. -/
def Obligations.BusyWriteRule : Prop :=
  (∀ (s : State) (v : Word) (r : Reg), s.engState = .busy →
    r = .cmd ∨ r = .pixcount ∨ r = .msglen ∨ r = .keylen →
    transact (sw r.offset v) s = ({ resp := .okay, rdata := 0#32 }, { s with hazerr := true })) ∧
  (∀ (s : State) (v : Word),
    transact (sw Reg.status.offset v) s = ({ resp := .okay, rdata := 0#32 },
      { s with done := s.done && !v.getLsbD 1, hazerr := s.hazerr && !v.getLsbD 5 }) ∧
    transact (sw Reg.inten.offset v) s = ({ resp := .okay, rdata := 0#32 },
      { s with doneie := v.getLsbD 0 })) ∧
  (∀ (s : State) (r : Reg),
    transact (lw r.offset) s = ({ resp := .okay, rdata := readReg r s }, s)) ∧
  (∀ (s : State) (t : Transaction), s.engState = .busy →
    readReg .msglen (transact t s).2 = readReg .msglen s ∧
    readReg .hdr (transact t s).2 = readReg .hdr s) ∧
  ∀ (s : State) (v : Word), readReg .msglen (accept v s) = readReg .msglen s ∧
    readReg .hdr (accept v s) = readReg .hdr s

/-- 10_state R22, R24, R25, R31 and R33: the register map. What a read returns, that a write to a
read-only register is ignored at any time, and that the operand registers store all 32 bits while
IDLE. -/
def Obligations.RegisterMapReadsAndWrites : Prop :=
  (Reg.id.offset = 0x000#32 ∧ Reg.cmd.offset = 0x004#32 ∧ Reg.status.offset = 0x008#32 ∧
    Reg.inten.offset = 0x00C#32 ∧ Reg.pixcount.offset = 0x010#32 ∧ Reg.msglen.offset = 0x014#32 ∧
    Reg.keylen.offset = 0x018#32 ∧ Reg.capbits.offset = 0x01C#32 ∧ Reg.hdr.offset = 0x020#32 ∧
    Reg.pixmax.offset = 0x024#32 ∧ Reg.msgmax.offset = 0x028#32 ∧ Reg.keymax.offset = 0x02C#32) ∧
  (∀ s : State, readReg .id s = 0x53544731#32 ∧ readReg .cmd s = 0#32 ∧
    readReg .pixcount s = s.pixcount ∧ readReg .msglen s = s.msglen ∧
    readReg .keylen s = s.keylen ∧ readReg .hdr s = s.hdr ∧
    (readReg .capbits s).toNat = 3 * s.pixcount.toNat % 2 ^ 32 ∧
    (s.params.wf = true → (readReg .pixmax s).toNat = s.params.pixMax ∧
      (readReg .msgmax s).toNat = s.params.msgMax ∧ (readReg .keymax s).toNat = s.params.keyMax ∧
      (s.pixcount.toNat ≤ s.params.pixMax →
        (readReg .capbits s).toNat = 3 * s.pixcount.toNat))) ∧
  (∀ (s : State) (v : Word) (r : Reg),
    r = .id ∨ r = .capbits ∨ r = .hdr ∨ r = .pixmax ∨ r = .msgmax ∨ r = .keymax →
    transact (sw r.offset v) s = ({ resp := .okay, rdata := 0#32 }, s)) ∧
  ∀ (s : State) (v : Word), s.engState = .idle →
    transact (sw Reg.pixcount.offset v) s =
      ({ resp := .okay, rdata := 0#32 }, { s with pixcount := v }) ∧
    transact (sw Reg.msglen.offset v) s = ({ resp := .okay, rdata := 0#32 }, { s with msglen := v }) ∧
    transact (sw Reg.keylen.offset v) s = ({ resp := .okay, rdata := 0#32 }, { s with keylen := v })

/-- 10_state R26: the fields of STATUS, and that RESULT holds its value until the next completion: no
transaction changes it. -/
def Obligations.StatusRegisterFields : Prop :=
  (∀ s : State,
    ((readReg .status s).getLsbD 0 = true ↔ s.engState = .busy) ∧
    (readReg .status s).getLsbD 1 = s.done ∧
    (readReg .status s).extractLsb' 2 3 = s.result.code ∧
    (readReg .status s).getLsbD 5 = s.hazerr ∧
    ∀ i, 6 ≤ i → (readReg .status s).getLsbD i = false) ∧
  (∀ (s : State) (t : Transaction), (transact t s).2.result = s.result) ∧
  (∀ (s : State) (w : Word), writeReg .status w s =
    { s with done := s.done && !w.getLsbD 1, hazerr := s.hazerr && !w.getLsbD 5 }) ∧
  Result.ok.code = 0#3 ∧ Result.capacityExceeded.code = 1#3 ∧ Result.noMsgTooSmall.code = 2#3 ∧
  Result.noMsgBadLength.code = 3#3 ∧ Result.illegalCmd.code = 4#3 ∧ Result.badParam.code = 5#3

/-- 10_state R27 and R37, 60_exceptions R217: the interrupt enable, the level of the output, and what
raises and clears it. -/
def Obligations.InterruptIsDoneAndEnabled : Prop :=
  (∀ s : State, irq s = (s.done && s.doneie) ∧
    irq s = ((readReg .status s).getLsbD 1 && (readReg .inten s).getLsbD 0) ∧
    ∀ i, 1 ≤ i → (readReg .inten s).getLsbD i = false) ∧
  (∀ (s : State) (w : Word), (writeReg .inten w s).doneie = w.getLsbD 0 ∧
    (writeReg .inten w s).done = s.done) ∧
  (∀ (s : State) (w : Word), w.getLsbD 1 = true → irq (writeReg .status w s) = false) ∧
  (∀ (s : State) (v : Word), irq (accept v s) = false) ∧
  ∀ s t : State, s.engState = .busy → engineStep s = .next t → irq t = s.doneie

/-- 10_state R26 and 70_reset R247, over every step: HAZERR is cleared by a STATUS write or a reset
alone, and DONE by those or an accepted CMD write alone. -/
def Obligations.StickyFlagsAreClearedOnlyAsStated : Prop :=
  ∀ s t : State, step s = .next t →
    (s.hazerr = true → t.hazerr = false →
      (∃ rest, s.inputs = .assertReset :: rest) ∨
      ∃ tr rest, s.inputs = .host tr :: rest ∧ tr.kind = .write ∧ tr.addr = Reg.status.offset ∧
        tr.wdata.getLsbD 5 = true) ∧
    (s.done = true → t.done = false →
      (∃ rest, s.inputs = .assertReset :: rest) ∨
      ∃ tr rest, s.inputs = .host tr :: rest ∧ tr.kind = .write ∧
        ((tr.addr = Reg.status.offset ∧ tr.wdata.getLsbD 1 = true) ∨
          (tr.addr = Reg.cmd.offset ∧ s.engState = .idle)))

/-- 60_exceptions R216: a transaction and a completion in one clock cycle give the result of some order
of the two; a W1C write of DONE leaves DONE = 1, and a CMD write is accepted (log 13). -/
def Obligations.SameCycleResolutions : Prop :=
  ∀ (s : State) (t : Transaction) (choice : Bool), s.params.wf = true → s.rst = false →
    s.engState = .busy →
    (sameCycle t choice s = engineStep (hostStep t s) ∨
      ∃ u, engineStep s = .next u ∧ sameCycle t choice s = .next (hostStep t u)) ∧
    (∀ w : Word, w.getLsbD 1 = true → t = sw Reg.status.offset w →
      ∃ u, sameCycle t choice s = .next u ∧ u.done = true ∧ u.engState = .idle) ∧
    ∀ v : Word, t = sw Reg.cmd.offset v →
      ∃ u, sameCycle t choice s = .next u ∧ u.engState = .busy ∧ u.engOp = decodeOp v ∧
        u.hazerr = s.hazerr

/-- 20_memory R69: a READ that the BUSY rules do not refuse has no side effect, and a WRITE other than
one to CMD is idempotent. -/
def Obligations.ReadsHaveNoEffectAndWritesAreIdempotent : Prop :=
  (∀ (s : State) (t : Transaction), t.kind = .read → s.engState = .idle ∨ legalRegister t →
    (transact t s).2 = s) ∧
  ∀ (s : State) (t : Transaction), s.engState = .idle → t.kind = .write →
    t.addr ≠ Reg.cmd.offset →
    readAlike (transact t s).2 (transact t (transact t s).2).2

/-- 30_encoding R100 and R101: `wait` goes back to its STATUS read while BUSY and leaves its loop once
the read shows BUSY = 0; the branch issues no transaction. -/
def Obligations.WaitLoopsWhileBusy : Prop :=
  ∀ (s : State) (c : HostControl),
    waitLines c.line = [.issue (lw Reg.status.offset), .bbs 0 c.line] ∧
    hostEncoding (waitLines c.line) = [lw Reg.status.offset] ∧
    (hostLine (.issue (lw Reg.status.offset)) c s).1.r = readReg .status s ∧
    (s.engState = .busy →
      (hostLine (.bbs 0 c.line) (hostLine (.issue (lw Reg.status.offset)) c s).1 s).1.line = c.line) ∧
    (s.engState = .idle →
      (hostLine (.bbs 0 c.line) (hostLine (.issue (lw Reg.status.offset)) c s).1 s).1.line =
        c.line + 2) ∧
    ∀ (d : HostControl) (n line : Nat), (hostLine (.bbs n line) d s).2 = s
end

