-- ==== Sys2Proof/Laws/State.lean ====
section
/-! SUPPORT. One lemma per field per state update, so that no proof unfolds a record update. -/

namespace Sys2Proof.Machine

/-! ### complete -/

@[simp] theorem complete_params (c : Result) (s : State) : (complete c s).params = s.params := rfl
@[simp] theorem complete_engState (c : Result) (s : State) : (complete c s).engState = .idle := rfl
@[simp] theorem complete_engOp (c : Result) (s : State) : (complete c s).engOp = s.engOp := rfl
@[simp] theorem complete_done (c : Result) (s : State) : (complete c s).done = true := rfl
@[simp] theorem complete_result (c : Result) (s : State) : (complete c s).result = c := rfl
@[simp] theorem complete_hazerr (c : Result) (s : State) : (complete c s).hazerr = s.hazerr := rfl
@[simp] theorem complete_doneie (c : Result) (s : State) : (complete c s).doneie = s.doneie := rfl
@[simp] theorem complete_pixcount (c : Result) (s : State) : (complete c s).pixcount = s.pixcount := rfl
@[simp] theorem complete_msglen (c : Result) (s : State) : (complete c s).msglen = s.msglen := rfl
@[simp] theorem complete_keylen (c : Result) (s : State) : (complete c s).keylen = s.keylen := rfl
@[simp] theorem complete_hdr (c : Result) (s : State) : (complete c s).hdr = s.hdr := rfl
@[simp] theorem complete_pixmem (c : Result) (s : State) : (complete c s).pixmem = s.pixmem := rfl
@[simp] theorem complete_msgmem (c : Result) (s : State) : (complete c s).msgmem = s.msgmem := rfl
@[simp] theorem complete_keymem (c : Result) (s : State) : (complete c s).keymem = s.keymem := rfl
@[simp] theorem complete_rst (c : Result) (s : State) : (complete c s).rst = s.rst := rfl
@[simp] theorem complete_drawNo (c : Result) (s : State) : (complete c s).drawNo = s.drawNo := rfl
@[simp] theorem complete_response (c : Result) (s : State) : (complete c s).response = s.response := rfl
@[simp] theorem complete_inputs (c : Result) (s : State) : (complete c s).inputs = s.inputs := rfl
@[simp] theorem memRead_complete (M : MemName) (a : Nat) (c : Result) (s : State) :
    memRead M a (complete c s) = memRead M a s := by cases M <;> rfl
@[simp] theorem cells_complete (M : MemName) (c : Result) (s : State) :
    State.cells (complete c s) M = s.cells M := by cases M <;> rfl

/-! ### accept -/

@[simp] theorem accept_params (v : Word) (s : State) : (accept v s).params = s.params := rfl
@[simp] theorem accept_engState (v : Word) (s : State) : (accept v s).engState = .busy := rfl
@[simp] theorem accept_engOp (v : Word) (s : State) : (accept v s).engOp = decodeOp v := rfl
@[simp] theorem accept_done (v : Word) (s : State) : (accept v s).done = false := rfl
@[simp] theorem accept_result (v : Word) (s : State) : (accept v s).result = s.result := rfl
@[simp] theorem accept_hazerr (v : Word) (s : State) : (accept v s).hazerr = s.hazerr := rfl
@[simp] theorem accept_doneie (v : Word) (s : State) : (accept v s).doneie = s.doneie := rfl
@[simp] theorem accept_pixcount (v : Word) (s : State) : (accept v s).pixcount = s.pixcount := rfl
@[simp] theorem accept_msglen (v : Word) (s : State) : (accept v s).msglen = s.msglen := rfl
@[simp] theorem accept_keylen (v : Word) (s : State) : (accept v s).keylen = s.keylen := rfl
@[simp] theorem accept_hdr (v : Word) (s : State) : (accept v s).hdr = s.hdr := rfl
@[simp] theorem accept_pixmem (v : Word) (s : State) : (accept v s).pixmem = s.pixmem := rfl
@[simp] theorem accept_msgmem (v : Word) (s : State) : (accept v s).msgmem = s.msgmem := rfl
@[simp] theorem accept_keymem (v : Word) (s : State) : (accept v s).keymem = s.keymem := rfl
@[simp] theorem accept_rst (v : Word) (s : State) : (accept v s).rst = s.rst := rfl
@[simp] theorem accept_drawNo (v : Word) (s : State) : (accept v s).drawNo = s.drawNo := rfl
@[simp] theorem accept_response (v : Word) (s : State) : (accept v s).response = s.response := rfl
@[simp] theorem accept_inputs (v : Word) (s : State) : (accept v s).inputs = s.inputs := rfl
@[simp] theorem memRead_accept (M : MemName) (a : Nat) (v : Word) (s : State) :
    memRead M a (accept v s) = memRead M a s := by cases M <;> rfl
@[simp] theorem cells_accept (M : MemName) (v : Word) (s : State) :
    State.cells (accept v s) M = s.cells M := by cases M <;> rfl

/-! ### setHazard -/

@[simp] theorem setHazard_params (s : State) : (setHazard s).params = s.params := rfl
@[simp] theorem setHazard_engState (s : State) : (setHazard s).engState = s.engState := rfl
@[simp] theorem setHazard_engOp (s : State) : (setHazard s).engOp = s.engOp := rfl
@[simp] theorem setHazard_done (s : State) : (setHazard s).done = s.done := rfl
@[simp] theorem setHazard_result (s : State) : (setHazard s).result = s.result := rfl
@[simp] theorem setHazard_hazerr (s : State) : (setHazard s).hazerr = true := rfl
@[simp] theorem setHazard_doneie (s : State) : (setHazard s).doneie = s.doneie := rfl
@[simp] theorem setHazard_pixcount (s : State) : (setHazard s).pixcount = s.pixcount := rfl
@[simp] theorem setHazard_msglen (s : State) : (setHazard s).msglen = s.msglen := rfl
@[simp] theorem setHazard_keylen (s : State) : (setHazard s).keylen = s.keylen := rfl
@[simp] theorem setHazard_hdr (s : State) : (setHazard s).hdr = s.hdr := rfl
@[simp] theorem setHazard_pixmem (s : State) : (setHazard s).pixmem = s.pixmem := rfl
@[simp] theorem setHazard_msgmem (s : State) : (setHazard s).msgmem = s.msgmem := rfl
@[simp] theorem setHazard_keymem (s : State) : (setHazard s).keymem = s.keymem := rfl
@[simp] theorem setHazard_rst (s : State) : (setHazard s).rst = s.rst := rfl
@[simp] theorem setHazard_drawNo (s : State) : (setHazard s).drawNo = s.drawNo := rfl
@[simp] theorem setHazard_response (s : State) : (setHazard s).response = s.response := rfl
@[simp] theorem setHazard_inputs (s : State) : (setHazard s).inputs = s.inputs := rfl
@[simp] theorem memRead_setHazard (M : MemName) (a : Nat) (s : State) :
    memRead M a (setHazard s) = memRead M a s := by cases M <;> rfl
@[simp] theorem cells_setHazard (M : MemName) (s : State) :
    State.cells (setHazard s) M = s.cells M := by cases M <;> rfl

/-! ### writeStatus -/

@[simp] theorem writeStatus_params (w : Word) (s : State) : (writeStatus w s).params = s.params := rfl
@[simp] theorem writeStatus_engState (w : Word) (s : State) : (writeStatus w s).engState = s.engState := rfl
@[simp] theorem writeStatus_engOp (w : Word) (s : State) : (writeStatus w s).engOp = s.engOp := rfl
@[simp] theorem writeStatus_done (w : Word) (s : State) : (writeStatus w s).done = (s.done && !(w.getLsbD 1)) := rfl
@[simp] theorem writeStatus_result (w : Word) (s : State) : (writeStatus w s).result = s.result := rfl
@[simp] theorem writeStatus_hazerr (w : Word) (s : State) : (writeStatus w s).hazerr = (s.hazerr && !(w.getLsbD 5)) := rfl
@[simp] theorem writeStatus_doneie (w : Word) (s : State) : (writeStatus w s).doneie = s.doneie := rfl
@[simp] theorem writeStatus_pixcount (w : Word) (s : State) : (writeStatus w s).pixcount = s.pixcount := rfl
@[simp] theorem writeStatus_msglen (w : Word) (s : State) : (writeStatus w s).msglen = s.msglen := rfl
@[simp] theorem writeStatus_keylen (w : Word) (s : State) : (writeStatus w s).keylen = s.keylen := rfl
@[simp] theorem writeStatus_hdr (w : Word) (s : State) : (writeStatus w s).hdr = s.hdr := rfl
@[simp] theorem writeStatus_pixmem (w : Word) (s : State) : (writeStatus w s).pixmem = s.pixmem := rfl
@[simp] theorem writeStatus_msgmem (w : Word) (s : State) : (writeStatus w s).msgmem = s.msgmem := rfl
@[simp] theorem writeStatus_keymem (w : Word) (s : State) : (writeStatus w s).keymem = s.keymem := rfl
@[simp] theorem writeStatus_rst (w : Word) (s : State) : (writeStatus w s).rst = s.rst := rfl
@[simp] theorem writeStatus_drawNo (w : Word) (s : State) : (writeStatus w s).drawNo = s.drawNo := rfl
@[simp] theorem writeStatus_response (w : Word) (s : State) : (writeStatus w s).response = s.response := rfl
@[simp] theorem writeStatus_inputs (w : Word) (s : State) : (writeStatus w s).inputs = s.inputs := rfl
@[simp] theorem memRead_writeStatus (M : MemName) (a : Nat) (w : Word) (s : State) :
    memRead M a (writeStatus w s) = memRead M a s := by cases M <;> rfl
@[simp] theorem cells_writeStatus (M : MemName) (w : Word) (s : State) :
    State.cells (writeStatus w s) M = s.cells M := by cases M <;> rfl

/-! ### writeInten -/

@[simp] theorem writeInten_params (w : Word) (s : State) : (writeInten w s).params = s.params := rfl
@[simp] theorem writeInten_engState (w : Word) (s : State) : (writeInten w s).engState = s.engState := rfl
@[simp] theorem writeInten_engOp (w : Word) (s : State) : (writeInten w s).engOp = s.engOp := rfl
@[simp] theorem writeInten_done (w : Word) (s : State) : (writeInten w s).done = s.done := rfl
@[simp] theorem writeInten_result (w : Word) (s : State) : (writeInten w s).result = s.result := rfl
@[simp] theorem writeInten_hazerr (w : Word) (s : State) : (writeInten w s).hazerr = s.hazerr := rfl
@[simp] theorem writeInten_doneie (w : Word) (s : State) : (writeInten w s).doneie = w.getLsbD 0 := rfl
@[simp] theorem writeInten_pixcount (w : Word) (s : State) : (writeInten w s).pixcount = s.pixcount := rfl
@[simp] theorem writeInten_msglen (w : Word) (s : State) : (writeInten w s).msglen = s.msglen := rfl
@[simp] theorem writeInten_keylen (w : Word) (s : State) : (writeInten w s).keylen = s.keylen := rfl
@[simp] theorem writeInten_hdr (w : Word) (s : State) : (writeInten w s).hdr = s.hdr := rfl
@[simp] theorem writeInten_pixmem (w : Word) (s : State) : (writeInten w s).pixmem = s.pixmem := rfl
@[simp] theorem writeInten_msgmem (w : Word) (s : State) : (writeInten w s).msgmem = s.msgmem := rfl
@[simp] theorem writeInten_keymem (w : Word) (s : State) : (writeInten w s).keymem = s.keymem := rfl
@[simp] theorem writeInten_rst (w : Word) (s : State) : (writeInten w s).rst = s.rst := rfl
@[simp] theorem writeInten_drawNo (w : Word) (s : State) : (writeInten w s).drawNo = s.drawNo := rfl
@[simp] theorem writeInten_response (w : Word) (s : State) : (writeInten w s).response = s.response := rfl
@[simp] theorem writeInten_inputs (w : Word) (s : State) : (writeInten w s).inputs = s.inputs := rfl
@[simp] theorem memRead_writeInten (M : MemName) (a : Nat) (w : Word) (s : State) :
    memRead M a (writeInten w s) = memRead M a s := by cases M <;> rfl
@[simp] theorem cells_writeInten (M : MemName) (w : Word) (s : State) :
    State.cells (writeInten w s) M = s.cells M := by cases M <;> rfl

/-! ### writeHdr -/

@[simp] theorem writeHdr_params (d : Nat) (s : State) : (writeHdr d s).params = s.params := rfl
@[simp] theorem writeHdr_engState (d : Nat) (s : State) : (writeHdr d s).engState = s.engState := rfl
@[simp] theorem writeHdr_engOp (d : Nat) (s : State) : (writeHdr d s).engOp = s.engOp := rfl
@[simp] theorem writeHdr_done (d : Nat) (s : State) : (writeHdr d s).done = s.done := rfl
@[simp] theorem writeHdr_result (d : Nat) (s : State) : (writeHdr d s).result = s.result := rfl
@[simp] theorem writeHdr_hazerr (d : Nat) (s : State) : (writeHdr d s).hazerr = s.hazerr := rfl
@[simp] theorem writeHdr_doneie (d : Nat) (s : State) : (writeHdr d s).doneie = s.doneie := rfl
@[simp] theorem writeHdr_pixcount (d : Nat) (s : State) : (writeHdr d s).pixcount = s.pixcount := rfl
@[simp] theorem writeHdr_msglen (d : Nat) (s : State) : (writeHdr d s).msglen = s.msglen := rfl
@[simp] theorem writeHdr_keylen (d : Nat) (s : State) : (writeHdr d s).keylen = s.keylen := rfl
@[simp] theorem writeHdr_hdr (d : Nat) (s : State) : (writeHdr d s).hdr = BitVec.ofNat 32 d := rfl
@[simp] theorem writeHdr_pixmem (d : Nat) (s : State) : (writeHdr d s).pixmem = s.pixmem := rfl
@[simp] theorem writeHdr_msgmem (d : Nat) (s : State) : (writeHdr d s).msgmem = s.msgmem := rfl
@[simp] theorem writeHdr_keymem (d : Nat) (s : State) : (writeHdr d s).keymem = s.keymem := rfl
@[simp] theorem writeHdr_rst (d : Nat) (s : State) : (writeHdr d s).rst = s.rst := rfl
@[simp] theorem writeHdr_drawNo (d : Nat) (s : State) : (writeHdr d s).drawNo = s.drawNo := rfl
@[simp] theorem writeHdr_response (d : Nat) (s : State) : (writeHdr d s).response = s.response := rfl
@[simp] theorem writeHdr_inputs (d : Nat) (s : State) : (writeHdr d s).inputs = s.inputs := rfl
@[simp] theorem memRead_writeHdr (M : MemName) (a : Nat) (d : Nat) (s : State) :
    memRead M a (writeHdr d s) = memRead M a s := by cases M <;> rfl
@[simp] theorem cells_writeHdr (M : MemName) (d : Nat) (s : State) :
    State.cells (writeHdr d s) M = s.cells M := by cases M <;> rfl

/-! ### memWrite -/

@[simp] theorem memWrite_params (M : MemName) (a : Nat) (v : Byte) (s : State) :
    (memWrite M a v s).params = s.params := by cases M <;> rfl
@[simp] theorem memWrite_engState (M : MemName) (a : Nat) (v : Byte) (s : State) :
    (memWrite M a v s).engState = s.engState := by cases M <;> rfl
@[simp] theorem memWrite_engOp (M : MemName) (a : Nat) (v : Byte) (s : State) :
    (memWrite M a v s).engOp = s.engOp := by cases M <;> rfl
@[simp] theorem memWrite_done (M : MemName) (a : Nat) (v : Byte) (s : State) :
    (memWrite M a v s).done = s.done := by cases M <;> rfl
@[simp] theorem memWrite_result (M : MemName) (a : Nat) (v : Byte) (s : State) :
    (memWrite M a v s).result = s.result := by cases M <;> rfl
@[simp] theorem memWrite_hazerr (M : MemName) (a : Nat) (v : Byte) (s : State) :
    (memWrite M a v s).hazerr = s.hazerr := by cases M <;> rfl
@[simp] theorem memWrite_doneie (M : MemName) (a : Nat) (v : Byte) (s : State) :
    (memWrite M a v s).doneie = s.doneie := by cases M <;> rfl
@[simp] theorem memWrite_pixcount (M : MemName) (a : Nat) (v : Byte) (s : State) :
    (memWrite M a v s).pixcount = s.pixcount := by cases M <;> rfl
@[simp] theorem memWrite_msglen (M : MemName) (a : Nat) (v : Byte) (s : State) :
    (memWrite M a v s).msglen = s.msglen := by cases M <;> rfl
@[simp] theorem memWrite_keylen (M : MemName) (a : Nat) (v : Byte) (s : State) :
    (memWrite M a v s).keylen = s.keylen := by cases M <;> rfl
@[simp] theorem memWrite_hdr (M : MemName) (a : Nat) (v : Byte) (s : State) :
    (memWrite M a v s).hdr = s.hdr := by cases M <;> rfl
@[simp] theorem memWrite_rst (M : MemName) (a : Nat) (v : Byte) (s : State) :
    (memWrite M a v s).rst = s.rst := by cases M <;> rfl
@[simp] theorem memWrite_drawNo (M : MemName) (a : Nat) (v : Byte) (s : State) :
    (memWrite M a v s).drawNo = s.drawNo := by cases M <;> rfl
@[simp] theorem memWrite_response (M : MemName) (a : Nat) (v : Byte) (s : State) :
    (memWrite M a v s).response = s.response := by cases M <;> rfl
@[simp] theorem memWrite_inputs (M : MemName) (a : Nat) (v : Byte) (s : State) :
    (memWrite M a v s).inputs = s.inputs := by cases M <;> rfl

/-! ### The inputs, the response and the reset input -/

@[simp] theorem memRead_with_inputs (M : MemName) (a : Nat) (s : State) (es : List Event) :
    memRead M a { s with inputs := es } = memRead M a s := by cases M <;> rfl
@[simp] theorem memRead_with_response (M : MemName) (a : Nat) (s : State) (r : Option Response) :
    memRead M a { s with response := r } = memRead M a s := by cases M <;> rfl
@[simp] theorem memRead_with_rst (M : MemName) (a : Nat) (s : State) (b : Bool) :
    memRead M a { s with rst := b } = memRead M a s := by cases M <;> rfl
@[simp] theorem memRead_with_pixcount (M : MemName) (a : Nat) (s : State) (v : Word) :
    memRead M a { s with pixcount := v } = memRead M a s := by cases M <;> rfl
@[simp] theorem memRead_with_msglen (M : MemName) (a : Nat) (s : State) (v : Word) :
    memRead M a { s with msglen := v } = memRead M a s := by cases M <;> rfl
@[simp] theorem memRead_with_keylen (M : MemName) (a : Nat) (s : State) (v : Word) :
    memRead M a { s with keylen := v } = memRead M a s := by cases M <;> rfl

@[simp] theorem busy_eq_true_iff (s : State) : s.busy = true ↔ s.engState = .busy := by
  unfold State.busy; cases s.engState <;> simp
@[simp] theorem busy_eq_false_iff (s : State) : s.busy = false ↔ s.engState = .idle := by
  unfold State.busy; cases s.engState <;> simp

/-- A register read looks at these fields alone (10_state R22). -/
theorem readReg_congr {s t : State} (hp : t.params = s.params) (he : t.engState = s.engState)
    (hd : t.done = s.done) (hr : t.result = s.result) (hh : t.hazerr = s.hazerr)
    (hi : t.doneie = s.doneie) (h1 : t.pixcount = s.pixcount) (h2 : t.msglen = s.msglen)
    (h3 : t.keylen = s.keylen) (h4 : t.hdr = s.hdr) (r : Reg) : readReg r t = readReg r s := by
  cases r <;> simp [readReg, statusWord, State.busy, intenWord, capbitsWord, *]

end Sys2Proof.Machine
end

