-- ==== Sys2Proof/Laws/Memory.lean ====
section
/-! SUPPORT. The memory laws: read after write, canonical form, bounds (20_memory R63, R76). -/

namespace Sys2Proof.Machine

theorem lookup_insert_same (a : Nat) (v : Byte) (m : Memory) :
    Memory.lookup (Memory.insert a v m) a = some v := by
  induction m with
  | nil => simp [Memory.insert, Memory.lookup]
  | cons c m ih =>
    obtain ⟨b, w⟩ := c
    simp only [Memory.insert]
    split
    · simp [Memory.lookup]
    · split
      · simp [Memory.lookup]
      · simp [Memory.lookup, Ne.symm ‹_›, ih]

theorem lookup_insert_other {a b : Nat} (h : b ≠ a) (v : Byte) (m : Memory) :
    Memory.lookup (Memory.insert a v m) b = Memory.lookup m b := by
  induction m with
  | nil => simp [Memory.insert, Memory.lookup, h.symm]
  | cons c m ih =>
    obtain ⟨x, w⟩ := c
    simp only [Memory.insert]
    split
    · simp [Memory.lookup, h.symm]
    · split
      · subst x; simp [Memory.lookup, h.symm]
      · simp [Memory.lookup, ih]

theorem mem_insert {a : Nat} {v : Byte} {m : Memory} {c : Host.Cell}
    (h : c ∈ Memory.insert a v m) : c = (a, v) ∨ c ∈ m := by
  induction m with
  | nil => simpa [Memory.insert] using h
  | cons d m ih =>
    obtain ⟨b, w⟩ := d
    simp only [Memory.insert] at h
    split at h
    · simpa using h
    · split at h
      · rcases List.mem_cons.1 h with h | h <;> simp [h]
      · rcases List.mem_cons.1 h with h | h
        · simp [h]
        · rcases ih h with h | h <;> simp [h]

/-- A write keeps the canonical form. -/
theorem insert_wf {m : Memory} (a : Nat) (v : Byte) (h : Memory.wf m = true) :
    Memory.wf (Memory.insert a v m) = true := by
  simp only [Memory.wf, decide_eq_true_eq] at *
  induction m with
  | nil => simp [Memory.insert]
  | cons d m ih =>
    obtain ⟨b, w⟩ := d
    rw [List.pairwise_cons] at h
    simp only [Memory.insert]
    split
    · rename_i hab
      refine List.pairwise_cons.2 ⟨fun c hc => ?_, List.pairwise_cons.2 h⟩
      rcases List.mem_cons.1 hc with rfl | hc
      · exact hab
      · exact lt_trans hab (h.1 c hc)
    · split
      · subst b; exact List.pairwise_cons.2 h
      · refine List.pairwise_cons.2 ⟨fun c hc => ?_, ih h.2⟩
        rcases mem_insert hc with rfl | hc
        · simp only; omega
        · exact h.1 c hc

/-- A write inside the memory keeps the bounds. -/
theorem insert_within {m : Memory} {n a : Nat} (v : Byte) (ha : a < n)
    (h : Memory.within n m = true) : Memory.within n (Memory.insert a v m) = true := by
  simp only [Memory.within, List.all_eq_true, decide_eq_true_eq] at *
  intro c hc
  rcases mem_insert hc with rfl | hc
  · exact ha
  · exact h c hc

/-! ### memWrite -/

@[simp] theorem memRead_memWrite_same (M : MemName) (a : Nat) (v : Byte) (s : State) :
    memRead M a (memWrite M a v s) = v := by
  cases M <;> simp [memRead, memWrite, State.cells, lookup_insert_same]

theorem memRead_memWrite_other {M : MemName} {a b : Nat} (h : b ≠ a) (v : Byte) (s : State) :
    memRead M b (memWrite M a v s) = memRead M b s := by
  cases M <;> simp [memRead, memWrite, State.cells, lookup_insert_other h]

theorem memRead_memWrite_otherMem {M N : MemName} (h : N ≠ M) (a b : Nat) (v : Byte) (s : State) :
    memRead N b (memWrite M a v s) = memRead N b s := by
  cases M <;> cases N <;> first | exact absurd rfl h | rfl

/-- What one byte reads as after a write. -/
theorem memRead_memWrite (M N : MemName) (a b : Nat) (v : Byte) (s : State) :
    memRead N b (memWrite M a v s) = if N = M ∧ b = a then v else memRead N b s := by
  by_cases hM : N = M
  · subst hM
    by_cases ha : b = a
    · subst ha; simp
    · simp [ha, memRead_memWrite_other ha]
  · simp [hM, memRead_memWrite_otherMem hM]

theorem memWrite_good {M : MemName} {a : Nat} (v : Byte) {s : State}
    (ha : a < memSize s.params M) (h : ∀ N, memoryGood N s) (N : MemName) :
    memoryGood N (memWrite M a v s) := by
  have hN := h N
  cases M <;> cases N <;>
    first
    | exact hN
    | exact ⟨insert_wf a v hN.1, insert_within v ha hN.2⟩

/-! ### Lists of bytes -/

@[simp] theorem memReadList_length (M : MemName) (a n : Nat) (s : State) :
    (memReadList M a n s).length = n := by simp [memReadList]

theorem memReadList_getElem (M : MemName) (a n : Nat) (s : State) (j : Nat)
    (h : j < (memReadList M a n s).length) :
    (memReadList M a n s)[j] = memRead M (a + j) s := by simp [memReadList]

theorem memReadList_congr {M : MemName} {a n : Nat} {s t : State}
    (h : ∀ j < n, memRead M (a + j) t = memRead M (a + j) s) :
    memReadList M a n t = memReadList M a n s := by
  simp only [memReadList]
  exact List.map_congr_left fun j hj => h j (List.mem_range.1 hj)

theorem memRead_memWriteList (M N : MemName) (a b : Nat) (bs : List Byte) (s : State) :
    memRead N b (memWriteList M a bs s) =
      if N = M ∧ a ≤ b ∧ b < a + bs.length then bs.getD (b - a) 0 else memRead N b s := by
  induction bs generalizing a s with
  | nil => simp [memWriteList]
  | cons v bs ih =>
    rw [memWriteList, ih, memRead_memWrite]
    by_cases hM : N = M
    · subst hM
      by_cases hab : b = a
      · subst hab; simp
      · by_cases h1 : a + 1 ≤ b ∧ b < a + 1 + bs.length
        · have h2 : a ≤ b ∧ b < a + (v :: bs).length := by simp; omega
          have h3 : b - a = (b - (a + 1)) + 1 := by omega
          rw [if_pos ⟨rfl, h1⟩, if_pos ⟨rfl, h2⟩, h3]
          simp
        · have h2 : ¬ (a ≤ b ∧ b < a + (v :: bs).length) := by simp; omega
          rw [if_neg (fun h => h1 h.2), if_neg (fun h => hab h.2), if_neg (fun h => h2 h.2)]
    · simp [hM]

/-! ### Changing nothing but memory cells -/

/-- `t` differs from `s` in the written bytes of memories alone. -/
def memOnly (s t : State) : Prop :=
  t = { s with pixmem := t.pixmem, msgmem := t.msgmem, keymem := t.keymem }

theorem memOnly_params {s t : State} (h : memOnly s t) : t.params = s.params := by rw [h]
theorem memOnly_engState {s t : State} (h : memOnly s t) : t.engState = s.engState := by rw [h]
theorem memOnly_engOp {s t : State} (h : memOnly s t) : t.engOp = s.engOp := by rw [h]
theorem memOnly_done {s t : State} (h : memOnly s t) : t.done = s.done := by rw [h]
theorem memOnly_result {s t : State} (h : memOnly s t) : t.result = s.result := by rw [h]
theorem memOnly_hazerr {s t : State} (h : memOnly s t) : t.hazerr = s.hazerr := by rw [h]
theorem memOnly_doneie {s t : State} (h : memOnly s t) : t.doneie = s.doneie := by rw [h]
theorem memOnly_pixcount {s t : State} (h : memOnly s t) : t.pixcount = s.pixcount := by rw [h]
theorem memOnly_msglen {s t : State} (h : memOnly s t) : t.msglen = s.msglen := by rw [h]
theorem memOnly_keylen {s t : State} (h : memOnly s t) : t.keylen = s.keylen := by rw [h]
theorem memOnly_hdr {s t : State} (h : memOnly s t) : t.hdr = s.hdr := by rw [h]
theorem memOnly_rst {s t : State} (h : memOnly s t) : t.rst = s.rst := by rw [h]
theorem memOnly_drawNo {s t : State} (h : memOnly s t) : t.drawNo = s.drawNo := by rw [h]
theorem memOnly_response {s t : State} (h : memOnly s t) : t.response = s.response := by rw [h]
theorem memOnly_inputs {s t : State} (h : memOnly s t) : t.inputs = s.inputs := by rw [h]

theorem memOnly_refl (s : State) : memOnly s s := rfl

theorem memOnly_memWrite (M : MemName) (a : Nat) (v : Byte) (s : State) :
    memOnly s (memWrite M a v s) := by cases M <;> rfl

theorem memOnly_trans {s t u : State} (h1 : memOnly s t) (h2 : memOnly t u) : memOnly s u := by
  unfold memOnly at *
  rw [h1] at h2
  exact h2

theorem memOnly_memWriteList (M : MemName) (a : Nat) (bs : List Byte) (s : State) :
    memOnly s (memWriteList M a bs s) := by
  induction bs generalizing a s with
  | nil => exact memOnly_refl s
  | cons v bs ih => exact memOnly_trans (memOnly_memWrite M a v s) (ih (a + 1) _)

/-- A write of bytes inside the memory keeps every memory canonical and inside its size. -/
theorem memWriteList_good {M : MemName} {a : Nat} {bs : List Byte} {s : State}
    (ha : a + bs.length ≤ memSize s.params M) (h : ∀ N, memoryGood N s) (N : MemName) :
    memoryGood N (memWriteList M a bs s) := by
  induction bs generalizing a s with
  | nil => exact h N
  | cons v bs ih =>
    simp only [List.length_cons] at ha
    exact ih (by simp; omega) (memWrite_good v (by omega) h)

@[simp] theorem memWriteList_params (M : MemName) (a : Nat) (bs : List Byte) (s : State) :
    (memWriteList M a bs s).params = s.params := memOnly_params (memOnly_memWriteList M a bs s)
@[simp] theorem memWriteList_engState (M : MemName) (a : Nat) (bs : List Byte) (s : State) :
    (memWriteList M a bs s).engState = s.engState := memOnly_engState (memOnly_memWriteList M a bs s)
@[simp] theorem memWriteList_engOp (M : MemName) (a : Nat) (bs : List Byte) (s : State) :
    (memWriteList M a bs s).engOp = s.engOp := memOnly_engOp (memOnly_memWriteList M a bs s)
@[simp] theorem memWriteList_done (M : MemName) (a : Nat) (bs : List Byte) (s : State) :
    (memWriteList M a bs s).done = s.done := memOnly_done (memOnly_memWriteList M a bs s)
@[simp] theorem memWriteList_result (M : MemName) (a : Nat) (bs : List Byte) (s : State) :
    (memWriteList M a bs s).result = s.result := memOnly_result (memOnly_memWriteList M a bs s)
@[simp] theorem memWriteList_hazerr (M : MemName) (a : Nat) (bs : List Byte) (s : State) :
    (memWriteList M a bs s).hazerr = s.hazerr := memOnly_hazerr (memOnly_memWriteList M a bs s)
@[simp] theorem memWriteList_doneie (M : MemName) (a : Nat) (bs : List Byte) (s : State) :
    (memWriteList M a bs s).doneie = s.doneie := memOnly_doneie (memOnly_memWriteList M a bs s)
@[simp] theorem memWriteList_pixcount (M : MemName) (a : Nat) (bs : List Byte) (s : State) :
    (memWriteList M a bs s).pixcount = s.pixcount := memOnly_pixcount (memOnly_memWriteList M a bs s)
@[simp] theorem memWriteList_msglen (M : MemName) (a : Nat) (bs : List Byte) (s : State) :
    (memWriteList M a bs s).msglen = s.msglen := memOnly_msglen (memOnly_memWriteList M a bs s)
@[simp] theorem memWriteList_keylen (M : MemName) (a : Nat) (bs : List Byte) (s : State) :
    (memWriteList M a bs s).keylen = s.keylen := memOnly_keylen (memOnly_memWriteList M a bs s)
@[simp] theorem memWriteList_hdr (M : MemName) (a : Nat) (bs : List Byte) (s : State) :
    (memWriteList M a bs s).hdr = s.hdr := memOnly_hdr (memOnly_memWriteList M a bs s)
@[simp] theorem memWriteList_rst (M : MemName) (a : Nat) (bs : List Byte) (s : State) :
    (memWriteList M a bs s).rst = s.rst := memOnly_rst (memOnly_memWriteList M a bs s)
@[simp] theorem memWriteList_drawNo (M : MemName) (a : Nat) (bs : List Byte) (s : State) :
    (memWriteList M a bs s).drawNo = s.drawNo := memOnly_drawNo (memOnly_memWriteList M a bs s)
@[simp] theorem memWriteList_response (M : MemName) (a : Nat) (bs : List Byte) (s : State) :
    (memWriteList M a bs s).response = s.response := memOnly_response (memOnly_memWriteList M a bs s)
@[simp] theorem memWriteList_inputs (M : MemName) (a : Nat) (bs : List Byte) (s : State) :
    (memWriteList M a bs s).inputs = s.inputs := memOnly_inputs (memOnly_memWriteList M a bs s)

end Sys2Proof.Machine
end

