-- ==== Sys2Proof/Laws/Bus.lean ====
section
/-! SUPPORT. What the address decode and one host transaction can do, said once (20_memory R62 to
R75). -/

namespace Sys2Proof.Machine

@[simp] theorem regAt_offset (r : Reg) : regAt r.offset = some r := by cases r <;> rfl

theorem offset_of_regAt {a : Word} {r : Reg} (h : regAt a = some r) : a = r.offset := by
  have := List.find?_some h
  exact (beq_iff_eq.1 this).symm

theorem regAt_none_iff (a : Word) : regAt a = none ↔ ∀ r : Reg, a ≠ r.offset := by
  simp only [regAt, List.find?_eq_none, beq_iff_eq]
  constructor
  · intro h r hr
    exact h r (by cases r <;> decide) hr.symm
  · intro h r _ hr
    exact h r hr.symm

/-- The register offsets are the word-aligned addresses up to 0x02C (R66). -/
theorem offset_iff (a : Word) : (∃ r : Reg, a = r.offset) ↔ a.toNat % 4 = 0 ∧ a.toNat ≤ 0x2C := by
  constructor
  · rintro ⟨r, rfl⟩
    cases r <;> decide
  · rintro ⟨h4, hle⟩
    have ha : a = BitVec.ofNat 32 a.toNat := by simp
    have hb : ∃ k ≤ 11, a.toNat = 4 * k := ⟨a.toNat / 4, by omega, by omega⟩
    obtain ⟨k, hk, he⟩ := hb
    rw [he] at ha
    subst ha
    clear h4 hle he
    interval_cases k
    · exact ⟨.id, rfl⟩
    · exact ⟨.cmd, rfl⟩
    · exact ⟨.status, rfl⟩
    · exact ⟨.inten, rfl⟩
    · exact ⟨.pixcount, rfl⟩
    · exact ⟨.msglen, rfl⟩
    · exact ⟨.keylen, rfl⟩
    · exact ⟨.capbits, rfl⟩
    · exact ⟨.hdr, rfl⟩
    · exact ⟨.pixmax, rfl⟩
    · exact ⟨.msgmax, rfl⟩
    · exact ⟨.keymax, rfl⟩

theorem inWindow_iff (p : Config.Params) (M : MemName) (a n : Nat) :
    inWindow p M a n = true ↔ windowBase M ≤ a ∧ a + n ≤ windowBase M + memSize p M := by
  simp [inWindow]

theorem windowAt_some {p : Config.Params} {a n : Nat} {T : Target} (h : windowAt p a n = some T) :
    ∃ M, inWindow p M a n = true ∧ T = .window M (a - windowBase M) := by
  simp only [windowAt, Option.map_eq_some_iff] at h
  obtain ⟨M, hM, rfl⟩ := h
  exact ⟨M, List.find?_some (p := fun M => inWindow p M a n) hM, rfl⟩

theorem windowAt_none_iff (p : Config.Params) (a n : Nat) :
    windowAt p a n = none ↔ ∀ M, inWindow p M a n = false := by
  simp only [windowAt, Option.map_eq_none_iff, List.find?_eq_none, Bool.not_eq_true]
  exact ⟨fun h M => h M (by cases M <;> decide), fun h M _ => h M⟩

/-- Under R8 the active ranges do not overlap, so the window of an access is the one it lies in. -/
theorem windowAt_eq {p : Config.Params} {M : MemName} {a n : Nat} (hw : p.wf = true) (hn : 1 ≤ n)
    (h : inWindow p M a n = true) : windowAt p a n = some (.window M (a - windowBase M)) := by
  cases hc : windowAt p a n with
  | none =>
    have := (windowAt_none_iff p a n).1 hc M
    rw [h] at this
    exact absurd this (by decide)
  | some T =>
    obtain ⟨N, hN, rfl⟩ := windowAt_some hc
    rw [inWindow_iff] at h hN
    simp [Config.Params.wf] at hw
    cases M <;> cases N <;> simp only [windowBase, memSize] at h hN <;>
      first | rfl | (exfalso; omega)

/-- What the address decode answers (R62, R64 to R67), by cases. -/
theorem target_cases (p : Config.Params) (t : Transaction) :
    (target p t = none) ∨
    (∃ r, target p t = some (.reg r) ∧ t.size = .four ∧ t.addr = r.offset) ∨
    (∃ M, target p t = some (.window M (t.addr.toNat - windowBase M)) ∧ t.size ≠ .invalid ∧
      t.addr.toNat % t.size.bytes = 0 ∧ windowBase M ≤ t.addr.toNat ∧
      t.addr.toNat + t.size.bytes ≤ windowBase M + memSize p M) := by
  have key : ∀ n, windowAt p t.addr.toNat n = none ∨ ∃ M, inWindow p M t.addr.toNat n = true ∧
      windowAt p t.addr.toNat n = some (.window M (t.addr.toNat - windowBase M)) := by
    intro n
    cases hc : windowAt p t.addr.toNat n with
    | none => exact .inl rfl
    | some T =>
      obtain ⟨M, hM, rfl⟩ := windowAt_some hc
      exact .inr ⟨M, hM, rfl⟩
  obtain ⟨kind, size, addr, wdata⟩ := t
  cases size with
  | invalid => exact .inl rfl
  | four =>
    cases hr : regAt addr with
    | some r => exact .inr (.inl ⟨r, by simp [target, hr], rfl, offset_of_regAt hr⟩)
    | none =>
      by_cases h4 : addr.toNat % 4 = 0
      · rcases key 4 with h | ⟨M, hM, h⟩
        · exact .inl (by simpa [target, hr, h4] using h)
        · rw [inWindow_iff] at hM
          exact .inr (.inr ⟨M, by simpa [target, hr, h4] using h, by simp, h4, hM.1, hM.2⟩)
      · exact .inl (by simp [target, hr, h4])
  | two =>
    by_cases h2 : addr.toNat % 2 = 0
    · rcases key 2 with h | ⟨M, hM, h⟩
      · exact .inl (by simpa [target, h2] using h)
      · rw [inWindow_iff] at hM
        exact .inr (.inr ⟨M, by simpa [target, h2] using h, by simp, h2, hM.1, hM.2⟩)
    · exact .inl (by simp [target, h2])
  | one =>
    rcases key 1 with h | ⟨M, hM, h⟩
    · exact .inl (by simpa [target] using h)
    · rw [inWindow_iff] at hM
      exact .inr (.inr ⟨M, by simpa [target] using h, by simp, Nat.mod_one _, hM.1, hM.2⟩)

/-- A legal register access reaches its register. -/
theorem target_reg (p : Config.Params) (t : Transaction) (r : Reg) (hs : t.size = .four)
    (ha : t.addr = r.offset) : target p t = some (.reg r) := by simp [target, hs, ha]

theorem transact_sw (r : Reg) (v : Word) (s : State) :
    transact (sw r.offset v) s = (okay 0#32, writeReg r v s) := by
  unfold transact
  rw [target_reg s.params (sw r.offset v) r rfl rfl]
  rfl

theorem transact_lw (r : Reg) (s : State) :
    transact (lw r.offset) s = (okay (readReg r s), s) := by
  unfold transact
  rw [target_reg s.params (lw r.offset) r rfl rfl]
  rfl

theorem legalWindow_iff (p : Config.Params) (M : MemName) (t : Transaction) :
    legalWindow p M t ↔ t.size ≠ .invalid ∧ t.addr.toNat % t.size.bytes = 0 ∧
      windowBase M ≤ t.addr.toNat ∧
      t.addr.toNat + t.size.bytes ≤ windowBase M + memSize p M := by
  unfold legalWindow
  refine and_congr_right fun hs => and_congr_right fun _ => ?_
  have hn : 1 ≤ t.size.bytes := by cases h : t.size <;> simp_all [BusSize.bytes]
  constructor
  · intro h
    obtain ⟨a, ha, h0⟩ := h 0 (by omega)
    obtain ⟨b, hb, h1⟩ := h (t.size.bytes - 1) (by omega)
    omega
  · rintro ⟨h0, h1⟩ i hi
    exact ⟨t.addr.toNat + i - windowBase M, by omega, by omega⟩

/-- A legal window access reaches its bytes (R62, R64). -/
theorem target_window {p : Config.Params} {t : Transaction} {M : MemName} (hw : p.wf = true)
    (h : legalWindow p M t) : target p t = some (.window M (windowOffset M t)) := by
  rw [legalWindow_iff] at h
  obtain ⟨hs, ha, h0, h1⟩ := h
  obtain ⟨kind, size, addr, wdata⟩ := t
  have hbase : 0x1000 ≤ windowBase M := by cases M <;> decide
  have hreg : regAt addr = none := by
    rw [regAt_none_iff]
    intro r hr
    have := ((offset_iff addr).1 ⟨r, hr⟩).2
    simp only at h0
    omega
  cases size with
  | invalid => exact absurd rfl hs
  | four =>
    have := windowAt_eq (n := 4) hw (by omega) ((inWindow_iff _ _ _ _).2 ⟨h0, h1⟩)
    simp only [BusSize.bytes] at ha
    simpa [target, hreg, ha, windowOffset] using this
  | two =>
    have := windowAt_eq (n := 2) hw (by omega) ((inWindow_iff _ _ _ _).2 ⟨h0, h1⟩)
    simp only [BusSize.bytes] at ha
    simpa [target, ha, windowOffset] using this
  | one =>
    have := windowAt_eq (n := 1) hw (by omega) ((inWindow_iff _ _ _ _).2 ⟨h0, h1⟩)
    simpa [target, windowOffset] using this

/-- Everything one transaction can do to the state (R22 to R33, R63 to R75). -/
theorem transact_state_cases (t : Transaction) (s : State) :
    (transact t s).2 = s ∨
    ((transact t s).2 = setHazard s ∧ s.engState = .busy) ∨
    (∃ r, t.kind = .write ∧ t.size = .four ∧ t.addr = r.offset ∧
      (transact t s).2 = writeReg r t.wdata s) ∨
    (∃ M a, s.engState = .idle ∧ t.kind = .write ∧ a + t.size.bytes ≤ memSize s.params M ∧
      (transact t s).2 = memWriteList M a (laneBytes t.wdata t.size.bytes) s) := by
  rcases target_cases s.params t with h | ⟨r, h, hs, ha⟩ | ⟨M, h, hs, ha, h0, h1⟩
  · exact .inl (by simp [transact, h])
  · cases hk : t.kind
    · exact .inl (by simp [transact, h, hk])
    · exact .inr (.inr (.inl ⟨r, rfl, hs, ha, by simp [transact, h, hk]⟩))
  · cases hb : s.engState
    · have hbusy : s.busy = false := by simp [hb]
      cases hk : t.kind
      · exact .inl (by simp [transact, h, hk, windowRead, hbusy])
      · refine .inr (.inr (.inr ⟨M, t.addr.toNat - windowBase M, rfl, rfl, by omega, ?_⟩))
        simp [transact, h, hk, windowWrite, hbusy]
    · have hbusy : s.busy = true := by simp [hb]
      refine .inr (.inl ⟨?_, rfl⟩)
      cases hk : t.kind <;> simp [transact, h, hk, windowRead, windowWrite, hbusy]

@[simp] theorem laneBytes_length (w : Word) (n : Nat) : (laneBytes w n).length = n := by
  simp [laneBytes]

theorem laneWord_eq_sum (bs : List Byte) :
    laneWord bs = ∑ i ∈ Finset.range bs.length, (bs.getD i 0#8).toNat * 2 ^ (8 * i) := by
  induction bs with
  | nil => rfl
  | cons b bs ih =>
    rw [laneWord, ih, List.length_cons, Finset.sum_range_succ']
    simp only [List.getD_cons_succ, List.getD_cons_zero, Nat.mul_zero, pow_zero, Nat.mul_one]
    rw [Finset.mul_sum, add_comm]
    congr 1
    refine Finset.sum_congr rfl fun i _ => ?_
    rw [show 8 * (i + 1) = 8 * i + 8 by omega, pow_add]
    ring

end Sys2Proof.Machine
end

