-- ==== Sys2Proof/Laws/Datapath.lean ====
section
/-! SUPPORT. The laws of the datapath primitives (40_datapath R120 to R131, 30_encoding R95, R98),
stated element by element. -/

namespace Sys2Proof.Machine

/-! ### Bit strings as numbers -/

@[simp] theorem bitsToNat_nil : bitsToNat [] = 0 := rfl

theorem bitsToNat_concat (s : BitString) (b : Bool) :
    bitsToNat (s ++ [b]) = 2 * bitsToNat s + b.toNat := by simp [bitsToNat, List.foldl_append]

theorem bitsToNat_lt (s : BitString) : bitsToNat s < 2 ^ s.length := by
  induction s using List.reverseRecOn with
  | nil => simp
  | append_singleton s b ih =>
    rw [bitsToNat_concat, List.length_append, List.length_singleton, pow_succ]
    have := b.toNat_lt
    omega

/-- The sum form of R98 and R121: element `k` weighs `2^(len - 1 - k)`. -/
theorem bitsToNat_eq_sum (s : BitString) :
    bitsToNat s = ∑ k ∈ Finset.range s.length, (s.getD k false).toNat * 2 ^ (s.length - 1 - k) := by
  induction s using List.reverseRecOn with
  | nil => simp
  | append_singleton s b ih =>
    rw [bitsToNat_concat, List.length_append, List.length_singleton, Finset.sum_range_succ, ih,
      Finset.mul_sum]
    congr 1
    · refine Finset.sum_congr rfl fun k hk => ?_
      have hk := Finset.mem_range.1 hk
      rw [List.getD_append _ _ _ _ hk, show s.length + 1 - 1 - k = (s.length - 1 - k) + 1 by omega,
        pow_succ]
      ring
    · simp

theorem testBit_bitsToNat (s : BitString) (i : Nat) :
    (bitsToNat s).testBit i = (decide (i < s.length) && s.getD (s.length - 1 - i) false) := by
  induction s using List.reverseRecOn generalizing i with
  | nil => simp
  | append_singleton s b ih =>
    rw [bitsToNat_concat]
    cases i with
    | zero => cases b <;> simp [Nat.testBit_zero]
    | succ i =>
      rw [Nat.testBit_succ, show (2 * bitsToNat s + b.toNat) / 2 = bitsToNat s by
        have := b.toNat_lt; omega, ih]
      by_cases h : i < s.length
      · have h2 : s.length - 1 - i < s.length := by omega
        have h3 : s.length - (i + 1) = s.length - 1 - i := by omega
        simp [h, List.getElem?_append, h3, if_pos h2]
      · simp [h]

/-! ### Bytes and bits -/

@[simp] theorem byteBits_length (b : Byte) : (byteBits b).length = 8 := by simp [byteBits]

theorem byteBits_getD (b : Byte) (t : Nat) :
    (byteBits b).getD t false = (decide (t < 8) && b.getLsbD (7 - t)) := by
  by_cases h : t < 8 <;> simp [byteBits, h]

@[simp] theorem bytesToBits_length (B : List Byte) : (bytesToBits B).length = 8 * B.length := by
  induction B with
  | nil => rfl
  | cons b B ih => simp [bytesToBits, ih]; omega

/-- R120, for every index: bit `i` is bit `7 - i mod 8` of byte `i div 8`. -/
theorem bytesToBits_getD (B : List Byte) (i : Nat) :
    (bytesToBits B).getD i false = (B.getD (i / 8) 0#8).getLsbD (7 - i % 8) := by
  induction B generalizing i with
  | nil => simp [bytesToBits]
  | cons b B ih =>
    rw [bytesToBits]
    by_cases h : i < 8
    · rw [List.getD_append _ _ _ _ (by simpa using h), byteBits_getD,
        show i / 8 = 0 by omega, show i % 8 = i by omega]
      simp [h]
    · rw [List.getD_append_right _ _ _ _ (by simpa using h), byteBits_length, ih,
        show i / 8 = (i - 8) / 8 + 1 by omega, show (i - 8) % 8 = i % 8 by omega]
      simp

theorem bytesToBits_append (A B : List Byte) :
    bytesToBits (A ++ B) = bytesToBits A ++ bytesToBits B := by
  induction A with
  | nil => rfl
  | cons a A ih => simp [bytesToBits, ih]

/-- A byte is the number its big-endian bits stand for. -/
theorem ofNat_bitsToNat_byteBits (b : Byte) : BitVec.ofNat 8 (bitsToNat (byteBits b)) = b := by
  apply BitVec.eq_of_getLsbD_eq
  intro i hi
  rw [BitVec.getLsbD_ofNat, testBit_bitsToNat, byteBits_getD]
  simp [hi, show 7 - i < 8 by omega, show 7 - (7 - i) = i by omega]

theorem byteBits_ofNat_bitsToNat (g : BitString) (h : g.length = 8) :
    byteBits (BitVec.ofNat 8 (bitsToNat g)) = g := by
  apply List.ext_getElem (by simp [h])
  intro i h1 h2
  have h8 : i < 8 := by simpa using h1
  have := byteBits_getD (BitVec.ofNat 8 (bitsToNat g)) i
  rw [List.getD_eq_getElem _ _ h1] at this
  rw [this, BitVec.getLsbD_ofNat, testBit_bitsToNat, h, show 8 - 1 - (7 - i) = i by omega,
    List.getD_eq_getElem _ _ h2]
  simp [h8, show 7 - i < 8 by omega]

/-- R121 by groups: the first 8 bits make the first byte. -/
theorem bitsToBytes_append (g : BitString) (h : g.length = 8) (s : BitString) :
    bitsToBytes (g ++ s) = BitVec.ofNat 8 (bitsToNat g) :: bitsToBytes s := by
  match g, h with
  | [a, b, c, d, e, f, i, j], _ => rfl

/-- R121: `8*n` bits give `n` bytes. -/
theorem bitsToBytes_length (n : Nat) (s : BitString) (h : s.length = 8 * n) :
    (bitsToBytes s).length = n := by
  induction n generalizing s with
  | zero => have : s = [] := List.length_eq_zero_iff.1 (by omega); subst this; rfl
  | succ n ih =>
    have hs : s = s.take 8 ++ s.drop 8 := (List.take_append_drop 8 s).symm
    rw [hs, bitsToBytes_append _ (by simp; omega), List.length_cons, ih _ (by simp; omega)]

/-- R121: byte `j` is the number that bits `8*j .. 8*j+7` stand for. -/
theorem bitsToBytes_getD (n j : Nat) (s : BitString) (h : s.length = 8 * n) (hj : j < n) :
    (bitsToBytes s).getD j 0#8 = BitVec.ofNat 8 (bitsToNat ((s.drop (8 * j)).take 8)) := by
  induction n generalizing s j with
  | zero => omega
  | succ n ih =>
    have hs : s = s.take 8 ++ s.drop 8 := (List.take_append_drop 8 s).symm
    have hg : (s.take 8).length = 8 := by simp; omega
    cases j with
    | zero => rw [hs, bitsToBytes_append _ hg]; simp
    | succ j =>
      rw [hs, bitsToBytes_append _ hg, List.getD_cons_succ,
        ih j (s.drop 8) (by simp; omega) (by omega), List.drop_drop, ← hs,
        show 8 * (j + 1) = 8 + 8 * j by omega]

/-! ### The keystream mixer -/

@[simp] theorem keystream_length (key : List Byte) (n : Nat) : (keystream key n).length = n := by
  simp [keystream]

/-- R124: element `i` is key bit `i mod (8*K)`. -/
theorem keystream_getD (key : List Byte) (n i : Nat) (h : i < n) :
    (keystream key n).getD i false = (bytesToBits key).getD (i % (8 * key.length)) false := by
  simp [keystream, h]

@[simp] theorem xorKey_length (key : List Byte) (s : BitString) :
    (xorKey key s).length = s.length := by
  unfold xorKey; split <;> simp

/-- The keystream bit of R125; without a key it is 0. -/
def keyBit (key : List Byte) (i : Nat) : Bool :=
  !(decide (key.length = 0)) && (bytesToBits key).getD (i % (8 * key.length)) false

/-- R125, for every element. -/
theorem xorKey_getD (key : List Byte) (s : BitString) (i : Nat) (h : i < s.length) :
    (xorKey key s).getD i false = (s.getD i false ^^ keyBit key i) := by
  unfold xorKey keyBit
  split
  · simp [*]
  · have hk := keystream_getD key s.length i h
    rw [List.getD_eq_getElem _ _ (by simpa using h)] at hk
    rw [List.getD_eq_getElem _ _ (by simpa using h), List.getD_eq_getElem _ _ h, List.getElem_zipWith,
      hk]
    simp [*]

/-- Two bit strings of one length are equal if their elements are. -/
theorem bits_ext {s t : BitString} (hl : s.length = t.length)
    (h : ∀ i < s.length, s.getD i false = t.getD i false) : s = t := by
  apply List.ext_getElem hl
  intro i h1 h2
  have := h i h1
  rwa [List.getD_eq_getElem _ _ h1, List.getD_eq_getElem _ _ h2] at this

/-- The keystream bit of a byte-aligned index (R128). -/
theorem keyBit_byte (key : List Byte) (i : Nat) (h : key.length ≠ 0) :
    keyBit key i = (key.getD (i / 8 % key.length) 0#8).getLsbD (7 - i % 8) := by
  have h1 : i % (8 * key.length) / 8 = i / 8 % key.length := Nat.mod_mul_right_div_self i 8 key.length
  have h2 : i % (8 * key.length) % 8 = i % 8 := Nat.mod_mul_right_mod i 8 key.length
  simp only [keyBit, h, decide_false, Bool.not_false, Bool.true_and, bytesToBits_getD, h1, h2]

/-! ### The channel walk -/

theorem chan_injective {i j : Nat} (h : chan i = chan j) : i = j := by unfold chan at h; omega

theorem chan_mod (i : Nat) : chan i % 4 < 3 := by unfold chan; omega

theorem chan_lt {i p : Nat} (h : i < 3 * p) : chan i < 4 * p := by unfold chan; omega

/-! ### The length prefix -/

@[simp] theorem be32bits_length (v : Word) : (be32bits v).length = 32 := by simp [be32bits]

theorem be32bits_getD (v : Word) (k : Nat) (h : k < 32) :
    (be32bits v).getD k false = v.getLsbD (31 - k) := by simp [be32bits, h]

theorem bitsToNat_be32bits (v : Word) : bitsToNat (be32bits v) = v.toNat := by
  apply Nat.eq_of_testBit_eq
  intro i
  rw [testBit_bitsToNat, be32bits_length, BitVec.testBit_toNat]
  by_cases h : i < 32
  · rw [be32bits_getD _ _ (by omega)]
    simp [h, show 31 - (32 - 1 - i) = i by omega]
  · simp [h, BitVec.getLsbD_of_ge v i (by omega)]

theorem declaredByteLength_be32bits (v : Word) (s : BitString) :
    declaredByteLength (be32bits v ++ s) = v.toNat := by
  simp [declaredByteLength, slice, bitsToNat_be32bits]

theorem declaredByteLength_lt (d : BitString) : declaredByteLength d < 2 ^ 32 := by
  refine lt_of_lt_of_le (bitsToNat_lt _) (Nat.pow_le_pow_right (by omega) ?_)
  simp [slice]

@[simp] theorem payloadBits_length (l : Word) (msg : List Byte) :
    (payloadBits l msg).length = 32 + 8 * msg.length := by simp [payloadBits]

/-! ### Channel bytes -/

@[simp] theorem replaceLsb_zero (v : Byte) (b : Bool) : (replaceLsb v b).getLsbD 0 = b := by
  cases b <;> simp [replaceLsb]

theorem replaceLsb_other (v : Byte) (b : Bool) (i : Nat) (h : 1 ≤ i) :
    (replaceLsb v b).getLsbD i = v.getLsbD i := by
  by_cases hi : i < 8
  · interval_cases i <;> cases b <;> simp [replaceLsb]
  · rw [BitVec.getLsbD_of_ge _ _ (by omega), BitVec.getLsbD_of_ge _ _ (by omega)]

end Sys2Proof.Machine
end

