-- ==== Sys2Proof/Laws/Commands.lean ====
section
/-! SUPPORT. What each loop and each command does, said once. -/

namespace Sys2Proof.Machine

/-! ### MIX's loop -/

theorem memOnly_mixLoop (k n j : Nat) (s : State) : memOnly s (mixLoop k n j s) := by
  induction n generalizing j s with
  | zero => exact memOnly_refl s
  | succ n ih => exact memOnly_trans (memOnly_memWrite _ _ _ s) (ih (j + 1) _)

theorem mixLoop_otherMem {M : MemName} (h : M ≠ .msgmem) (k n j a : Nat) (s : State) :
    memRead M a (mixLoop k n j s) = memRead M a s := by
  induction n generalizing j s with
  | zero => rfl
  | succ n ih => rw [mixLoop, ih, mixByte, memRead_memWrite_otherMem h]

/-- R193: the loop XORs bytes `j .. j+n-1` with the key bytes it finds, and leaves the others. -/
theorem mixLoop_msgmem (k n j a : Nat) (s : State) :
    memRead .msgmem a (mixLoop k n j s) =
      if j ≤ a ∧ a < j + n then memRead .msgmem a s ^^^ memRead .keymem (a % k) s
      else memRead .msgmem a s := by
  induction n generalizing j s with
  | zero => rw [mixLoop, if_neg (by omega)]
  | succ n ih =>
    have hkey : ∀ b, memRead .keymem b (mixByte k j s) = memRead .keymem b s :=
      fun b => memRead_memWrite_otherMem (by decide) _ _ _ _
    rw [mixLoop, ih, hkey]
    by_cases h : a = j
    · subst h
      rw [if_neg (by omega), if_pos (by omega), mixByte, memRead_memWrite_same]
    · have hmsg : memRead .msgmem a (mixByte k j s) = memRead .msgmem a s :=
        memRead_memWrite_other h _ _
      rw [hmsg]
      by_cases h2 : j + 1 ≤ a ∧ a < j + 1 + n
      · rw [if_pos h2, if_pos (by omega)]
      · rw [if_neg h2, if_neg (by omega)]

/-! ### EMBED's write walk -/

theorem memOnly_embedWalk (i : Nat) (bs : BitString) (s : State) : memOnly s (embedWalk i bs s) := by
  induction bs generalizing i s with
  | nil => exact memOnly_refl s
  | cons b bs ih => exact memOnly_trans (memOnly_memWrite _ _ _ s) (ih (i + 1) _)

theorem embedWalk_otherMem {M : MemName} (h : M ≠ .pixmem) (i a : Nat) (bs : BitString) (s : State) :
    memRead M a (embedWalk i bs s) = memRead M a s := by
  induction bs generalizing i s with
  | nil => rfl
  | cons b bs ih => rw [embedWalk, ih, memRead_memWrite_otherMem h]

/-- R154: every byte that is no channel of an element keeps its value. -/
theorem embedWalk_untouched (i a : Nat) (bs : BitString) (s : State)
    (h : ∀ k < bs.length, a ≠ chan (i + k)) :
    memRead .pixmem a (embedWalk i bs s) = memRead .pixmem a s := by
  induction bs generalizing i s with
  | nil => rfl
  | cons b bs ih =>
    have h0 : a ≠ chan i := by simpa using h 0 (by simp)
    rw [embedWalk, ih (i + 1), memRead_memWrite_other h0]
    intro k hk
    have := h (k + 1) (by simpa using hk)
    rwa [show i + (k + 1) = i + 1 + k by omega] at this

/-- R154: the channel of element `k` takes that element in its bit 0. -/
theorem embedWalk_channel (i k : Nat) (bs : BitString) (s : State) (hk : k < bs.length) :
    memRead .pixmem (chan (i + k)) (embedWalk i bs s) =
      replaceLsb (memRead .pixmem (chan (i + k)) s) (bs.getD k false) := by
  induction bs generalizing i k s with
  | nil => simp at hk
  | cons b bs ih =>
    rw [embedWalk]
    cases k with
    | zero =>
      rw [embedWalk_untouched]
      · simp
      · intro k _ h
        have := chan_injective h
        omega
    | succ k =>
      have hne : chan (i + (k + 1)) ≠ chan i := fun h => by have := chan_injective h; omega
      have hi := ih (i + 1) k (memWrite .pixmem (chan i)
        (replaceLsb (memRead .pixmem (chan i) s) b) s) (by simpa using hk)
      rw [show i + 1 + k = i + (k + 1) by omega] at hi
      rw [hi, memRead_memWrite_other hne]
      simp

/-! ### Operands -/

@[simp] theorem message_length (s : State) : (message s).length = s.L := by simp [message]

@[simp] theorem keyBytes_length (s : State) : (keyBytes s).length = s.K := by simp [keyBytes]

@[simp] theorem embedPayload_length (s : State) : (embedPayload s).length = 32 + 8 * s.L := by
  simp [embedPayload]

@[simp] theorem embedEncoded_length (s : State) : (embedEncoded s).length = 32 + 8 * s.L := by
  simp [embedEncoded]

@[simp] theorem extractedBits_length (s : State) : (extractedBits s).length = 3 * s.P := by
  simp [extractedBits]

@[simp] theorem decodedBits_length (s : State) : (decodedBits s).length = 3 * s.P := by
  simp [decodedBits]

theorem extractedBits_getD (s : State) (i : Nat) (h : i < 3 * s.P) :
    (extractedBits s).getD i false = (memRead .pixmem (chan i) s).getLsbD 0 := by
  simp [extractedBits, h]

theorem message_getD (s : State) (j : Nat) (h : j < s.L) :
    (message s).getD j 0#8 = memRead .msgmem j s := by simp [message, memReadList, h]

theorem keyBytes_getD (s : State) (j : Nat) (h : j < s.K) :
    (keyBytes s).getD j 0#8 = memRead .keymem j s := by simp [keyBytes, memReadList, h]

/-- The key is a function of KEYLEN and the key bytes. -/
theorem keyBytes_congr {s t : State} (hk : t.keylen = s.keylen)
    (h : ∀ a < s.K, memRead .keymem a t = memRead .keymem a s) : keyBytes t = keyBytes s := by
  have hK : t.K = s.K := congrArg BitVec.toNat hk
  simp only [keyBytes, hK]
  exact memReadList_congr fun j hj => by simpa using h j hj

/-- The message is a function of MSGLEN and the message bytes. -/
theorem message_congr {s t : State} (hl : t.msglen = s.msglen)
    (h : ∀ a < s.L, memRead .msgmem a t = memRead .msgmem a s) : message t = message s := by
  have hL : t.L = s.L := congrArg BitVec.toNat hl
  simp only [message, hL]
  exact memReadList_congr fun j hj => by simpa using h j hj

/-- The scan is a function of PIXCOUNT and the bits 0 of the channel bytes. -/
theorem extractedBits_congr {s t : State} (hp : t.pixcount = s.pixcount)
    (h : ∀ i < 3 * s.P, (memRead .pixmem (chan i) t).getLsbD 0 =
      (memRead .pixmem (chan i) s).getLsbD 0) : extractedBits t = extractedBits s := by
  have hP : t.P = s.P := congrArg BitVec.toNat hp
  apply bits_ext (by simp [hP])
  intro i hi
  have hi : i < 3 * s.P := by simpa [hP] using hi
  rw [extractedBits_getD _ _ (by rwa [hP]), extractedBits_getD _ _ hi, h i hi]

theorem embedEncoded_congr {s t : State} (hl : t.msglen = s.msglen) (hk : t.keylen = s.keylen)
    (hm : ∀ a < s.L, memRead .msgmem a t = memRead .msgmem a s)
    (hb : ∀ a < s.K, memRead .keymem a t = memRead .keymem a s) :
    embedEncoded t = embedEncoded s := by
  simp only [embedEncoded, embedPayload, hl, message_congr hl hm, keyBytes_congr hk hb]

/-- `t` has the state EXTRACT reads in common with `s`. -/
structure sameScan (s t : State) : Prop where
  pixcount : t.pixcount = s.pixcount
  keylen : t.keylen = s.keylen
  pixels : ∀ i < 3 * s.P, (memRead .pixmem (chan i) t).getLsbD 0 =
    (memRead .pixmem (chan i) s).getLsbD 0
  key : ∀ a < s.K, memRead .keymem a t = memRead .keymem a s

theorem decodedBits_congr {s t : State} (h : sameScan s t) : decodedBits t = decodedBits s := by
  simp only [decodedBits, keyBytes_congr h.keylen h.key, extractedBits_congr h.pixcount h.pixels]

theorem declaredLength_congr {s t : State} (h : sameScan s t) :
    declaredLength t = declaredLength s := by
  simp only [declaredLength, decodedBits_congr h]

theorem extractOutput_congr {s t : State} (h : sameScan s t) (d : Nat) :
    extractOutput d t = extractOutput d s := by
  simp only [extractOutput, decodedBits_congr h]

theorem declaredLength_lt (s : State) : declaredLength s < 2 ^ 32 := declaredByteLength_lt _

theorem extractOutput_length (d : Nat) (s : State) (h : 32 + 8 * d ≤ 3 * s.P) :
    (extractOutput d s).length = d := by
  apply bitsToBytes_length
  simp [slice]
  omega

/-! ### EXTRACT's writes on success -/

@[simp] theorem extractStore_msglen (d : Nat) (s : State) :
    (extractStore d s).msglen = BitVec.ofNat 32 d := rfl
@[simp] theorem extractStore_params (d : Nat) (s : State) : (extractStore d s).params = s.params :=
  memWriteList_params ..
@[simp] theorem extractStore_engState (d : Nat) (s : State) : (extractStore d s).engState = s.engState :=
  memWriteList_engState ..
@[simp] theorem extractStore_engOp (d : Nat) (s : State) : (extractStore d s).engOp = s.engOp :=
  memWriteList_engOp ..
@[simp] theorem extractStore_done (d : Nat) (s : State) : (extractStore d s).done = s.done :=
  memWriteList_done ..
@[simp] theorem extractStore_result (d : Nat) (s : State) : (extractStore d s).result = s.result :=
  memWriteList_result ..
@[simp] theorem extractStore_hazerr (d : Nat) (s : State) : (extractStore d s).hazerr = s.hazerr :=
  memWriteList_hazerr ..
@[simp] theorem extractStore_doneie (d : Nat) (s : State) : (extractStore d s).doneie = s.doneie :=
  memWriteList_doneie ..
@[simp] theorem extractStore_pixcount (d : Nat) (s : State) : (extractStore d s).pixcount = s.pixcount :=
  memWriteList_pixcount ..
@[simp] theorem extractStore_keylen (d : Nat) (s : State) : (extractStore d s).keylen = s.keylen :=
  memWriteList_keylen ..
@[simp] theorem extractStore_hdr (d : Nat) (s : State) : (extractStore d s).hdr = s.hdr :=
  memWriteList_hdr ..
@[simp] theorem extractStore_rst (d : Nat) (s : State) : (extractStore d s).rst = s.rst :=
  memWriteList_rst ..
@[simp] theorem extractStore_drawNo (d : Nat) (s : State) : (extractStore d s).drawNo = s.drawNo :=
  memWriteList_drawNo ..
@[simp] theorem extractStore_response (d : Nat) (s : State) : (extractStore d s).response = s.response :=
  memWriteList_response ..
@[simp] theorem extractStore_inputs (d : Nat) (s : State) : (extractStore d s).inputs = s.inputs :=
  memWriteList_inputs ..

/-- R166: MSGMEM[0..len) takes the output bytes; every other byte is unchanged. -/
theorem memRead_extractStore (M : MemName) (a d : Nat) (s : State) :
    memRead M a (extractStore d s) =
      if M = .msgmem ∧ a < (extractOutput d s).length then (extractOutput d s).getD a 0#8
      else memRead M a s := by
  have h := memRead_memWriteList .msgmem M 0 a (extractOutput d s) s
  have h0 : memRead M a (extractStore d s) =
      memRead M a (memWriteList .msgmem 0 (extractOutput d s) s) := by cases M <;> rfl
  rw [h0, h]
  simp

/-! ### The commands -/

theorem exec_nop (s : State) : exec .nop s = .next (complete .ok s) := rfl

theorem exec_mix_cases (s : State) :
    (mixOutOfRange s = true ∧ exec .mix s = .next (complete .badParam s)) ∨
    (mixOutOfRange s = false ∧ s.K = 0 ∧ exec .mix s = .next (complete .ok s)) ∨
    (mixOutOfRange s = false ∧ s.K ≠ 0 ∧
      exec .mix s = .next (complete .ok (mixLoop s.K s.L 0 s))) := by
  simp only [exec, execMix]
  by_cases h : mixOutOfRange s = true
  · simp [h]
  · by_cases hk : s.K = 0 <;> simp [h, hk]

theorem exec_embed_cases (s : State) :
    (embedOutOfRange s = true ∧ exec .embed s = .next (complete .badParam s)) ∨
    (embedOutOfRange s = false ∧ 32 + 8 * s.L > 3 * s.P ∧
      exec .embed s = .next (complete .capacityExceeded s)) ∨
    (embedOutOfRange s = false ∧ 32 + 8 * s.L ≤ 3 * s.P ∧
      exec .embed s = .next (complete .ok (embedWalk 0 (embedEncoded s) s))) := by
  simp only [exec, execEmbed, capacityBits]
  by_cases h : embedOutOfRange s = true
  · simp [h]
  · by_cases hk : 32 + 8 * s.L > 3 * s.P
    · simp [h, hk]
    · simp [h, hk]; omega

theorem exec_extract_cases (s : State) :
    (extractOutOfRange s = true ∧ exec .extract s = .next (complete .badParam s)) ∨
    (extractOutOfRange s = false ∧ 3 * s.P < 32 ∧
      exec .extract s = .next (complete .noMsgTooSmall s)) ∨
    (extractOutOfRange s = false ∧ 32 ≤ 3 * s.P ∧
      (declaredLength s = 0 ∨ 32 + 8 * declaredLength s > 3 * s.P) ∧
      exec .extract s = .next (complete .noMsgBadLength (writeHdr (declaredLength s) s))) ∨
    (extractOutOfRange s = false ∧ 1 ≤ declaredLength s ∧ 32 + 8 * declaredLength s ≤ 3 * s.P ∧
      s.params.msgMax < declaredLength s ∧ exec .extract s = .fault .engineOffsetOutsideMemory) ∨
    (extractOutOfRange s = false ∧ 1 ≤ declaredLength s ∧ 32 + 8 * declaredLength s ≤ 3 * s.P ∧
      declaredLength s ≤ s.params.msgMax ∧
      exec .extract s = .next (complete .ok
        (extractStore (declaredLength s) (writeHdr (declaredLength s) s)))) := by
  simp only [exec, execExtract, capacityBits]
  by_cases h : extractOutOfRange s = true
  · simp [h]
  · by_cases h1 : 3 * s.P < 32
    · simp [h, h1]
    · by_cases h2 : declaredLength s = 0 ∨ 32 + 8 * declaredLength s > 3 * s.P
      · simp [h, h1, h2]; omega
      · by_cases h3 : declaredLength s > s.params.msgMax
        · simp [h, h1, h2, h3]; omega
        · simp [h, h1, h2, h3]; omega

/-- R166: under R8 the declared length of an accepted message fits in MSGMEM. -/
theorem declared_fits {s : State} (hw : s.params.wf = true) (hr : extractOutOfRange s = false)
    (hd : 32 + 8 * declaredLength s ≤ 3 * s.P) : declaredLength s ≤ s.params.msgMax := by
  simp [Config.Params.wf, Config.msgNeed] at hw
  simp [extractOutOfRange] at hr
  omega

end Sys2Proof.Machine
end

