-- ==== Sys2Proof/Laws/Decode.lean ====
section
/-! SUPPORT. The decoder's byte order and its two answers (30_encoding R90 to R92). -/

namespace Sys2Proof

/-- The bytes of a word, in the order of the bus lanes, make the word (20_memory R63). -/
theorem wordOfBytes_bytesOfWord (x : Word) :
    wordOfBytes (x.extractLsb' 0 8) (x.extractLsb' 8 8) (x.extractLsb' 16 8) (x.extractLsb' 24 8) =
      x := by
  apply BitVec.eq_of_getLsbD_eq
  intro i hi
  unfold wordOfBytes
  simp only [BitVec.getLsbD_append, BitVec.getLsbD_extractLsb']
  by_cases h1 : i < 8
  · simp [h1]
  · by_cases h2 : i < 16
    · have h3 : i - 8 < 8 := by omega
      have h4 : 8 + (i - 8) = i := by omega
      simp [h1, h3, h4]
    · by_cases h5 : i < 24
      · have h6 : ¬ i - 8 < 8 := by omega
        have h7 : i - 8 - 8 < 8 := by omega
        have h8 : 16 + (i - 8 - 8) = i := by omega
        simp only [h1, h6, h7, h8, decide_true, decide_false, Bool.true_and, if_true, if_false]
      · have h6 : ¬ i - 8 < 8 := by omega
        have h7 : ¬ i - 8 - 8 < 8 := by omega
        have h8 : i - 8 - 8 - 8 < 8 := by omega
        have h9 : 24 + (i - 8 - 8 - 8) = i := by omega
        simp only [h1, h6, h7, h8, h9, decide_true, decide_false, Bool.true_and, if_false]

theorem decodeBytes_bytesOfWord (w : Word) (rest : List Byte) :
    decodeBytes (bytesOfWord w ++ rest) = match decode w with
      | .ok i => .ok (i, rest)
      | .error e => .error e := by
  cases h : decode w <;> simp [bytesOfWord, decodeBytes, wordOfBytes_bytesOfWord, h]

/-- The table's decoder is the decoder of the command word. -/
theorem decodeTableWord_some_iff (n w : Nat) (i : Instr) :
    decodeTableWord n w = some i ↔ decode (tableWord n w) = .ok i := by
  have h := decodeBytes_bytesOfWord (tableWord n w) []
  rw [List.append_nil] at h
  unfold decodeTableWord
  rw [h]
  cases decode (tableWord n w) <;> simp

theorem decodeOp_of_ok {w : Word} {i : Instr} (h : decode w = .ok i) : decodeOp w = .command i := by
  simp [decodeOp, h]

theorem decodeOp_illegal_iff (w : Word) : decodeOp w = .illegal ↔ w.extractLsb' 2 30 ≠ 0#30 := by
  unfold decodeOp decode cmdRsv
  split
  · rename_i h
    split at h <;> simp_all
  · rename_i h
    split at h <;> simp_all

end Sys2Proof
end

