-- ==== Sys2Proof/Laws/PerInstr.lean ====
section
/-! SUPPORT. What holds of every command as syntax, one lemma per command (30_encoding R90 to R92). -/

namespace Sys2Proof.Laws.EncodeDecode

/-- A command is well formed, its word has a zero reserved field, the decoder reads the command back
from the word and from its bytes on the bus lanes, and the engine takes it as that command. -/
def Statement (i : Instr) : Prop :=
  i.wf = true ∧ cmdWordWf (encode i) = true ∧ decode (encode i) = .ok i ∧
    decodeBytes (bytesOfWord (encode i)) = .ok (i, []) ∧ decodeOp (encode i) = .command i

theorem nop : Statement .nop := ⟨rfl, rfl, rfl, rfl, rfl⟩

theorem embed : Statement .embed := ⟨rfl, rfl, rfl, rfl, rfl⟩

theorem extract : Statement .extract := ⟨rfl, rfl, rfl, rfl, rfl⟩

theorem mix : Statement .mix := ⟨rfl, rfl, rfl, rfl, rfl⟩

end Sys2Proof.Laws.EncodeDecode
end

