-- ==== Sys2Proof/Laws/Step.lean ====
section
/-! SUPPORT. What a step can do, said once; the memory part of the invariant, operation by operation. -/

namespace Sys2Proof.Machine

/-! ### Running -/

@[simp] theorem runSteps_zero (s : State) : runSteps 0 s = .next s := rfl

theorem runSteps_succ (n : Nat) (s : State) :
    runSteps (n + 1) s = match step s with
      | .next t => runSteps n t
      | .fault f => .fault f
      | .refused r => .refused r := by
  cases h : step s <;> simp [runSteps, Host.Core.run, Sys2Proof.core, h]

theorem runSteps_next {n : Nat} {s t : State} (h : step s = .next t) :
    runSteps (n + 1) s = runSteps n t := by rw [runSteps_succ, h]

theorem step_nil {s : State} (h : s.inputs = []) : step s = engineStep s := by
  simp [step, nextStep, h]

theorem step_cons {s : State} {e : Event} {rest : List Event} (h : s.inputs = e :: rest) :
    step s = eventStep e { s with inputs := rest } := by simp [step, nextStep, h]

/-- Everything the engine's step can do (R212, R223). -/
theorem engineStep_cases (s : State) :
    (s.engState = .idle ∧ engineStep s = .next s) ∨
    (∃ i, s.engState = .busy ∧ s.engOp = .command i ∧ engineStep s = exec i s) ∨
    (s.engState = .busy ∧ s.engOp = .illegal ∧
      engineStep s = .next (complete .illegalCmd s)) := by
  unfold engineStep
  cases h1 : s.engState
  · simp
  · cases h2 : s.engOp <;> simp [execIllegal]

/-- The states a completed command can leave, with the result in front: the one inversion lemma of
`exec`. -/
theorem exec_next_cases {i : Instr} {s t : State} (h : exec i s = .next t) :
    (∃ c, t = complete c s ∧ c ≠ .noMsgBadLength ∧ c ≠ .illegalCmd) ∨
    (i = .mix ∧ mixOutOfRange s = false ∧ t = complete .ok (mixLoop s.K s.L 0 s)) ∨
    (i = .embed ∧ embedOutOfRange s = false ∧ 32 + 8 * s.L ≤ 3 * s.P ∧
      t = complete .ok (embedWalk 0 (embedEncoded s) s)) ∨
    (i = .extract ∧ t = complete .noMsgBadLength (writeHdr (declaredLength s) s)) ∨
    (i = .extract ∧ 32 + 8 * declaredLength s ≤ 3 * s.P ∧ declaredLength s ≤ s.params.msgMax ∧
      t = complete .ok (extractStore (declaredLength s) (writeHdr (declaredLength s) s))) := by
  cases i with
  | nop =>
    rw [exec_nop] at h
    cases h
    exact .inl ⟨.ok, rfl, by decide, by decide⟩
  | mix =>
    rcases exec_mix_cases s with ⟨h1, h2⟩ | ⟨h1, -, h2⟩ | ⟨h1, -, h2⟩ <;> rw [h2] at h <;> cases h
    · exact .inl ⟨_, rfl, by decide, by decide⟩
    · exact .inl ⟨_, rfl, by decide, by decide⟩
    · exact .inr (.inl ⟨rfl, h1, rfl⟩)
  | embed =>
    rcases exec_embed_cases s with ⟨h1, h2⟩ | ⟨h1, h3, h2⟩ | ⟨h1, h3, h2⟩ <;> rw [h2] at h <;>
      cases h
    · exact .inl ⟨_, rfl, by decide, by decide⟩
    · exact .inl ⟨_, rfl, by decide, by decide⟩
    · exact .inr (.inr (.inl ⟨rfl, h1, h3, rfl⟩))
  | extract =>
    rcases exec_extract_cases s with ⟨_, h2⟩ | ⟨_, _, h2⟩ | ⟨_, _, _, h2⟩ | ⟨_, _, _, _, h2⟩ |
      ⟨_, _, h3, h4, h2⟩ <;> rw [h2] at h <;> cases h
    · exact .inl ⟨_, rfl, by decide, by decide⟩
    · exact .inl ⟨_, rfl, by decide, by decide⟩
    · exact .inr (.inr (.inr (.inl ⟨rfl, rfl⟩)))
    · exact .inr (.inr (.inr (.inr ⟨rfl, h3, h4, rfl⟩)))

/-- What every completion does to the engine and STATUS, and what it leaves (R212). -/
theorem exec_frame {i : Instr} {s t : State} (h : exec i s = .next t) :
    completedWith t.result s t ∧ sameSurroundings s t ∧ t.pixcount = s.pixcount ∧
      t.keylen = s.keylen ∧ sameBytes .keymem s t := by
  rcases exec_next_cases h with ⟨c, rfl, -, -⟩ | ⟨-, -, rfl⟩ | ⟨-, -, -, rfl⟩ | ⟨-, rfl⟩ | ⟨-, -, -, rfl⟩
  · exact ⟨⟨rfl, rfl, rfl, rfl, rfl, rfl⟩, ⟨rfl, rfl, rfl, rfl, rfl⟩, rfl, rfl, fun a => rfl⟩
  · have hm := memOnly_mixLoop s.K s.L 0 s
    refine ⟨⟨rfl, (memOnly_engOp hm :), rfl, rfl, (memOnly_hazerr hm :), (memOnly_doneie hm :)⟩,
      ⟨(memOnly_params hm :), (memOnly_rst hm :), (memOnly_drawNo hm :), (memOnly_response hm :),
        (memOnly_inputs hm :)⟩, (memOnly_pixcount hm :), (memOnly_keylen hm :), fun a => ?_⟩
    rw [memRead_complete, mixLoop_otherMem (by decide)]
  · have hm := memOnly_embedWalk 0 (embedEncoded s) s
    refine ⟨⟨rfl, (memOnly_engOp hm :), rfl, rfl, (memOnly_hazerr hm :), (memOnly_doneie hm :)⟩,
      ⟨(memOnly_params hm :), (memOnly_rst hm :), (memOnly_drawNo hm :), (memOnly_response hm :),
        (memOnly_inputs hm :)⟩, (memOnly_pixcount hm :), (memOnly_keylen hm :), fun a => ?_⟩
    rw [memRead_complete, embedWalk_otherMem (by decide)]
  · exact ⟨⟨rfl, rfl, rfl, rfl, rfl, rfl⟩, ⟨rfl, rfl, rfl, rfl, rfl⟩, rfl, rfl, fun a => rfl⟩
  · refine ⟨⟨rfl, ?_, rfl, rfl, ?_, ?_⟩, ⟨?_, ?_, ?_, ?_, ?_⟩, ?_, ?_, fun a => ?_⟩ <;>
      simp [memRead_extractStore]

/-- The same of the engine's step in a BUSY state. -/
theorem engineStep_frame {s t : State} (hb : s.engState = .busy) (h : engineStep s = .next t) :
    completedWith t.result s t ∧ sameSurroundings s t ∧ t.pixcount = s.pixcount ∧
      t.keylen = s.keylen ∧ sameBytes .keymem s t := by
  rcases engineStep_cases s with ⟨h1, -⟩ | ⟨i, -, -, h2⟩ | ⟨-, -, h2⟩
  · rw [hb] at h1; cases h1
  · exact exec_frame (h2 ▸ h)
  · rw [h2] at h
    cases h
    exact ⟨⟨rfl, rfl, rfl, rfl, rfl, rfl⟩, ⟨rfl, rfl, rfl, rfl, rfl⟩, rfl, rfl, fun a => rfl⟩

/-- Under R8 every command answers a next state. -/
theorem exec_answers (i : Instr) {s : State} (hw : s.params.wf = true) : ∃ t, exec i s = .next t := by
  cases i with
  | nop => exact ⟨_, exec_nop s⟩
  | mix => rcases exec_mix_cases s with ⟨_, h⟩ | ⟨_, _, h⟩ | ⟨_, _, h⟩ <;> exact ⟨_, h⟩
  | embed => rcases exec_embed_cases s with ⟨_, h⟩ | ⟨_, _, h⟩ | ⟨_, _, h⟩ <;> exact ⟨_, h⟩
  | extract =>
    rcases exec_extract_cases s with ⟨_, h⟩ | ⟨_, _, h⟩ | ⟨_, _, _, h⟩ | ⟨h1, _, h3, h4, _⟩ |
      ⟨_, _, _, _, h⟩
    · exact ⟨_, h⟩
    · exact ⟨_, h⟩
    · exact ⟨_, h⟩
    · exact absurd (declared_fits hw h1 h3) (by omega)
    · exact ⟨_, h⟩

/-- Under R8 the engine's step answers a next state. -/
theorem engineStep_answers {s : State} (hw : s.params.wf = true) : ∃ t, engineStep s = .next t := by
  rcases engineStep_cases s with ⟨_, h⟩ | ⟨i, _, _, h⟩ | ⟨_, _, h⟩
  · exact ⟨_, h⟩
  · rw [h]
    exact exec_answers i hw
  · exact ⟨_, h⟩

/-! ### Memories stay canonical and inside their sizes -/

theorem mixLoop_good {k n j : Nat} {s : State} (hn : j + n ≤ s.params.msgMax)
    (h : ∀ N, memoryGood N s) (N : MemName) : memoryGood N (mixLoop k n j s) := by
  induction n generalizing j s with
  | zero => exact h N
  | succ n ih =>
    exact ih (by rw [mixByte, memWrite_params]; omega)
      (memWrite_good (M := .msgmem) _ (by simp only [memSize]; omega) h)

theorem embedWalk_good {i : Nat} {bs : BitString} {s : State}
    (hn : i + bs.length ≤ 3 * s.params.pixMax) (h : ∀ N, memoryGood N s) (N : MemName) :
    memoryGood N (embedWalk i bs s) := by
  induction bs generalizing i s with
  | nil => exact h N
  | cons b bs ih =>
    simp only [List.length_cons] at hn
    have hc : chan i < 4 * s.params.pixMax := chan_lt (by omega)
    exact ih (by rw [memWrite_params]; omega) (memWrite_good (M := .pixmem) _ hc h)

/-- The goodness of memories looks at the cells and the parameters alone. -/
theorem memoryGood_congr {s t : State} {M : MemName} (hc : t.cells M = s.cells M)
    (hp : t.params = s.params) (h : memoryGood M s) : memoryGood M t := by
  unfold memoryGood at *
  rwa [hc, hp]

theorem cells_with_msglen (s : State) (v : Word) (M : MemName) :
    State.cells { s with msglen := v } M = s.cells M := by cases M <;> rfl

theorem exec_good {i : Instr} {s t : State} (h : exec i s = .next t) (hm : ∀ N, memoryGood N s)
    (N : MemName) : memoryGood N t := by
  rcases exec_next_cases h with ⟨c, rfl, -, -⟩ | ⟨-, hr, rfl⟩ | ⟨-, hr, hl, rfl⟩ | ⟨-, rfl⟩ |
    ⟨-, h1, h2, rfl⟩
  · exact memoryGood_congr (cells_complete ..) rfl (hm N)
  · simp [mixOutOfRange] at hr
    exact memoryGood_congr (cells_complete ..) rfl (mixLoop_good (by omega) hm N)
  · simp [embedOutOfRange] at hr
    exact memoryGood_congr (cells_complete ..) rfl (embedWalk_good (by simp; omega) hm N)
  · exact memoryGood_congr ((cells_complete ..).trans (cells_writeHdr ..)) rfl (hm N)
  · have hs := fun M => memoryGood_congr (cells_writeHdr M (declaredLength s) s) rfl (hm M)
    have hlen := extractOutput_length (declaredLength s) (writeHdr (declaredLength s) s)
      (by simpa [State.P] using h1)
    have hw := memWriteList_good (M := .msgmem) (a := 0)
      (bs := extractOutput (declaredLength s) (writeHdr (declaredLength s) s)) ?_ hs N
    · exact memoryGood_congr ((cells_complete ..).trans (cells_with_msglen ..))
        (by simp [extractStore]) hw
    rw [hlen]
    simp only [memSize, writeHdr_params]
    omega

theorem transact_good {tr : Transaction} {s : State} (hm : ∀ N, memoryGood N s) (N : MemName) :
    memoryGood N (transact tr s).2 := by
  rcases transact_state_cases tr s with h | ⟨h, -⟩ | ⟨r, -, -, -, h⟩ | ⟨M, a, -, -, hle, h⟩ <;> rw [h]
  · exact hm N
  · exact memoryGood_congr (cells_setHazard ..) rfl (hm N)
  · have hN := hm N
    cases r <;> simp only [writeReg, unlessBusy] <;>
      first
      | exact hN
      | (split <;> cases N <;> exact hN)
  · exact memWriteList_good (by simpa using hle) hm N

/-! ### What a transaction leaves -/

/-- No transaction changes the parameters, the reset input, the draw, RESULT, HDR, the response or
the inputs (R61 to R75, R219). -/
theorem transact_frame (tr : Transaction) (s : State) :
    (transact tr s).2.params = s.params ∧ (transact tr s).2.rst = s.rst ∧
    (transact tr s).2.drawNo = s.drawNo ∧ (transact tr s).2.result = s.result ∧
    (transact tr s).2.hdr = s.hdr ∧ (transact tr s).2.response = s.response ∧
    (transact tr s).2.inputs = s.inputs := by
  rcases transact_state_cases tr s with h | ⟨h, -⟩ | ⟨r, -, -, -, h⟩ | ⟨M, a, -, -, -, h⟩ <;> rw [h]
  · simp
  · simp
  · cases r <;> simp only [writeReg, unlessBusy] <;> first | (split <;> simp) | simp
  · simp

/-- While BUSY no transaction changes the engine, DONE's being 0, the operand registers or a byte
(R23, R73 to R75). -/
theorem transact_busy {tr : Transaction} {s : State} (hb : s.engState = .busy)
    (hd : s.done = false) :
    (transact tr s).2.engState = .busy ∧ (transact tr s).2.engOp = s.engOp ∧
    (transact tr s).2.done = false ∧ sameOperandRegs s (transact tr s).2 ∧
    ∀ M, sameBytes M s (transact tr s).2 := by
  have hbusy : s.busy = true := by simp [hb]
  rcases transact_state_cases tr s with h | ⟨h, -⟩ | ⟨r, -, -, -, h⟩ | ⟨M, a, hi, -⟩
  · rw [h]
    exact ⟨hb, rfl, hd, ⟨rfl, rfl, rfl⟩, fun M a => rfl⟩
  · rw [h]
    exact ⟨hb, rfl, hd, ⟨rfl, rfl, rfl⟩, fun M a => memRead_setHazard ..⟩
  · rw [h]
    cases r <;> simp [writeReg, unlessBusy, hbusy, hb, hd, sameOperandRegs, sameBytes]
  · rw [hi] at hb; cases hb

@[simp] theorem hostStep_engState (t : Transaction) (s : State) :
    (hostStep t s).engState = (transact t s).2.engState := rfl
@[simp] theorem hostStep_inputs (t : Transaction) (s : State) :
    (hostStep t s).inputs = s.inputs := (transact_frame t s).2.2.2.2.2.2
@[simp] theorem hostStep_params (t : Transaction) (s : State) :
    (hostStep t s).params = s.params := (transact_frame t s).1
@[simp] theorem hostStep_rst (t : Transaction) (s : State) :
    (hostStep t s).rst = s.rst := (transact_frame t s).2.1

/-! ### What a completion leaves -/

theorem completedWith_complete {c : Result} {s u : State} (h : memOnly s u) :
    completedWith c s (complete c u) :=
  ⟨rfl, (memOnly_engOp h :), rfl, rfl, (memOnly_hazerr h :), (memOnly_doneie h :)⟩

theorem sameSurroundings_complete {c : Result} {s u : State} (h : memOnly s u) :
    sameSurroundings s (complete c u) :=
  ⟨(memOnly_params h :), (memOnly_rst h :), (memOnly_drawNo h :), (memOnly_response h :), (memOnly_inputs h :)⟩

theorem sameOperandRegs_complete {c : Result} {s u : State} (h : memOnly s u) :
    sameOperandRegs s (complete c u) :=
  ⟨(memOnly_pixcount h :), (memOnly_msglen h :), (memOnly_keylen h :)⟩

/-- A command that ends with a result and does nothing else. -/
theorem onlyStatusChanged_complete (c : Result) (s : State) :
    onlyStatusChanged c s (complete c s) :=
  ⟨completedWith_complete (memOnly_refl s), ⟨rfl, rfl, rfl⟩, rfl, ⟨rfl, rfl, rfl, rfl, rfl⟩,
    fun M a => memRead_complete M a c s⟩

end Sys2Proof.Machine
end

