-- ==== Sys2Proof/Tests/Slice0.lean ====
section
/-! SUPPORT. Tests: words and vectors of the spec (30_encoding, 95_test_vectors), refusals of the
checks, and for every statement with hypotheses a witness that meets them. -/

namespace Sys2Proof.Tests

open Sys2Proof.Machine

/-! ### Small states -/

/-- A memory that holds `bs` from offset 0 on. -/
def memOf (bs : List Byte) : Memory := (List.range bs.length).zip bs

/-- `n` copies of one byte. -/
def bytes (n : Nat) (b : Byte) : Memory := memOf (List.replicate n b)

/-- The reference configuration with three operand registers and three memories set. -/
def st (p l k : Word) (pix msg key : Memory) : State :=
  { State.reset with pixcount := p, msglen := l, keylen := k, pixmem := pix, msgmem := msg,
                     keymem := key }

/-- The state with the command `v` accepted. -/
def busyWith (v : Word) (s : State) : State := accept v s

/-- A field of the next state; none where the step stopped. -/
def got {α : Type} (f : State → α) : Host.Outcome State Fault Refusal → Option α
  | .next s => some (f s)
  | .fault _ => none
  | .refused _ => none

/-- The next state, or the state itself where the step stopped. -/
def next (s : State) : Host.Outcome State Fault Refusal → State
  | .next t => t
  | .fault _ => s
  | .refused _ => s

/-- The bytes 0 to `n-1` of a memory. -/
def dump (M : MemName) (n : Nat) (s : State) : List Byte := memReadList M 0 n s

/-! ### Decoding: words written bit by bit from 30_encoding R90 and R91 -/

theorem test_decode_nop : decode 0b000000000000000000000000000000_00#32 = .ok .nop := by decide

theorem test_decode_embed : decode 0b000000000000000000000000000000_01#32 = .ok .embed := by decide

theorem test_decode_extract : decode 0b000000000000000000000000000000_10#32 = .ok .extract := by decide

theorem test_decode_mix : decode 0b000000000000000000000000000000_11#32 = .ok .mix := by decide

/-- V-I1, V-I2, V-I3: the reserved field settles it, whatever OP is. -/
theorem test_decode_illegal :
    decodeOp 0x00000004#32 = .illegal ∧ decodeOp 0xFFFFFFFF#32 = .illegal ∧
      decodeOp 0x80000001#32 = .illegal := by decide

theorem test_decode_table :
    decodeTableWord 32 0 = some .nop ∧ decodeTableWord 32 1 = some .embed ∧
      decodeTableWord 32 2 = some .extract ∧ decodeTableWord 32 3 = some .mix ∧
      decodeTableWord 32 4 = none := by decide

/-- The first byte lies on the lowest lane (20_memory R63). -/
theorem test_decode_byte_order :
    decodeBytes [0x02#8, 0x00#8, 0x00#8, 0x00#8] = .ok (.extract, []) ∧
      decodeBytes [0x00#8, 0x00#8, 0x00#8, 0x02#8] = .error (.reservedBitsSet 0x00800000#30) := by
  decide

/-! ### The checks refuse ill-formed terms -/

/-- Each constraint of 00_scope R8, broken alone. -/
theorem test_params_refused :
    ({ pixMax := 0, msgMax := 1, keyMax := 1 } : Config.Params).wf = false ∧
    ({ pixMax := 2 ^ 29 + 1, msgMax := 2 ^ 28, keyMax := 1 } : Config.Params).wf = false ∧
    ({ pixMax := 1, msgMax := 0, keyMax := 1 } : Config.Params).wf = false ∧
    ({ pixMax := 256, msgMax := 91, keyMax := 1 } : Config.Params).wf = false ∧
    ({ pixMax := 1, msgMax := 2 ^ 28 + 1, keyMax := 1 } : Config.Params).wf = false ∧
    ({ pixMax := 1, msgMax := 1, keyMax := 0 } : Config.Params).wf = false ∧
    ({ pixMax := 1, msgMax := 1, keyMax := 4097 } : Config.Params).wf = false := by decide

/-- The ends of the ranges of 00_scope R8 are allowed. -/
theorem test_params_accepted :
    Config.Params.reference.wf = true ∧
    ({ pixMax := 1, msgMax := 1, keyMax := 1 } : Config.Params).wf = true ∧
    ({ pixMax := 2 ^ 29, msgMax := 2 ^ 28, keyMax := 4096 } : Config.Params).wf = true := by decide

theorem test_command_word_refused : cmdWordWf 0x00000004#32 = false := by decide

/-- `Instr.wf` has nothing to refuse: a command has no fields (R90). -/
theorem test_commands_wf : ∀ i : Instr, i.wf = true := by
  intro i; cases i <;> rfl

theorem test_bus_size_refused : (BusSize.ofCode 3#2).wf = false := by decide

theorem test_odd_bits_refused : wholeBytes [true, false, true] = false := by decide

theorem test_short_command_refused :
    decodeBytes [0x01#8, 0x00#8, 0x00#8] = .error .tooShort := by decide

/-! ### Datapath vectors (95_test_vectors V-D1 to V-D11) -/

theorem test_bits_of_byte :
    bytesToBits [0x68#8] = [false, true, true, false, true, false, false, false] := by decide

theorem test_bytes_of_bits :
    bitsToBytes [false, true, true, false, true, false, false, true,
      true, false, false, false, false, false, false, false] = [0x69#8, 0x80#8] := by decide

theorem test_keystream :
    keystream [0xA5#8, 0x0F#8] 20 = [true, false, true, false, false, true, false, true,
      false, false, false, false, true, true, true, true, true, false, true, false] := by decide

theorem test_mixer_three_bits : xorKey [0x80#8] [true, false, true] = [false, false, true] := by decide

theorem test_chan :
    [0, 2, 3, 31, 32, 47, 299].map chan = [0, 2, 4, 41, 42, 62, 398] := by decide

theorem test_be32 : be32bits 2#32 = List.replicate 30 false ++ [true, false] := by decide

/-! ### Commands: one engine step each -/

/-- V-N1, from the word: STATUS 0x02 after NOP. -/
theorem test_nop_step :
    got (readReg .status) (step (State.reset.withFetchWord 32 0)) = some 0x2#32 := by decide

/-- V-I3: no EMBED effect, STATUS 0x12. -/
theorem test_illegal_step :
    got (readReg .status) (step (withCommandNext 0x80000001#32 State.reset)) = some 0x12#32 := by
  decide

/-- V-E10: EMBED with a two-byte key; the bytes that become 0x01. -/
theorem test_embed_keyed :
    got (fun t => ((List.range 76).filter fun a => memRead .pixmem a t == 1#8, readReg .status t))
      (step ((st 19 3 2 (bytes 76 0) (memOf [0x41, 0x42, 0x43]) (memOf [0x01, 0x80])).withFetchWord
        32 1)) = some ([9, 10, 30, 32, 40, 41, 44, 53, 54, 61, 65, 72], 0x2#32) := by
  decide +kernel

/-- V-E5: an empty message in bytes of 0x55; byte 42 and the alpha bytes stay. -/
theorem test_embed_empty :
    got (fun t => (List.range 44).filter fun a => memRead .pixmem a t == 0x54#8)
      (step ((st 11 0 0 (bytes 44 0x55) [] []).withFetchWord 32 1)) =
      some ((List.range 32).map chan) := by
  decide +kernel

/-- P1's pixels (V-E1 in 16 pixels) as bytes. -/
def embedded : Memory := (List.range 64).map fun a =>
  (a, if a ∈ [1, 2, 5, 8, 9, 12, 13, 16, 18, 20, 22, 24, 26, 29, 30, 33, 34, 37, 41, 50, 52, 61] then
    1#8 else 0#8)

/-- P1: EXTRACT gives back "hi" with the key 6B. -/
theorem test_extract_message :
    got (fun t => (readReg .status t, t.hdr, t.msglen, dump .msgmem 2 t))
      (step ((st 16 0 1 embedded [] (memOf [0x6B])).withFetchWord 32 2)) =
      some (0x2#32, 2#32, 2#32, [0x68, 0x69]) := by
  decide +kernel

/-- P2: EXTRACT with the key 6A; the declared length is no length. -/
theorem test_extract_wrong_key :
    got (fun t => (readReg .status t, t.hdr, t.msglen))
      (step ((st 16 2 1 embedded [] (memOf [0x6A])).withFetchWord 32 2)) =
      some (0xE#32, 0x01010103#32, 2#32) := by
  decide +kernel

/-- V-M6: MIX with a key shorter than the message. -/
theorem test_mix_repeats_key :
    got (dump .msgmem 5)
      (step ((st 0 5 3 [] (memOf [0x10, 0x20, 0x30, 0x40, 0x50]) (memOf [0xFF, 0x0F, 0xF0])).withFetchWord
        32 3)) = some [0xEF, 0x2F, 0xC0, 0xBF, 0x5F] := by
  decide +kernel

/-- V-M7: MSGLEN 93. -/
theorem test_mix_bad_param :
    got (readReg .status) (step ((st 0 93 0 [] [] []).withFetchWord 32 3)) = some 0x16#32 := by decide

/-! ### Bus vectors (V-B1 to V-B16) -/

/-- V-B2, V-B3, V-B4, V-B8: SLVERR with rdata 0. -/
theorem test_bus_errors :
    (transact (lw (windowAddr .pixmem 2)) State.reset).1 = slverr ∧
    (transact (lb Reg.status.offset) State.reset).1 = slverr ∧
    (transact (lw 0x030#32) State.reset).1 = slverr ∧
    (transact (lw 0x00001010#32) State.reset).1 = slverr ∧ slverr.rdata = 0#32 ∧
    slverr.busErr = true := by decide

/-- V-B5: little-endian lanes. -/
theorem test_bus_lanes :
    (transact (lb (windowAddr .pixmem 0))
      (transact (sw (windowAddr .pixmem 0) 0x44332211#32) State.reset).2).1 = okay 0x11#32 ∧
    (transact (lh (windowAddr .pixmem 2))
      (transact (sw (windowAddr .pixmem 0) 0x44332211#32) State.reset).2).1 = okay 0x4433#32 := by
  decide +kernel

/-- V-B1, V-B6, V-B7, V-B15, V-B16. -/
theorem test_register_reads :
    (transact (lw 0x000#32) State.reset).1 = okay 0x53544731#32 ∧
    (transact (lw 0x01C#32) (st 100 0 0 [] [] [])).1 = okay 300#32 ∧
    (transact (lw 0x01C#32) (st 0x60000000 0 0 [] [] [])).1 = okay 0x20000000#32 ∧
    (transact (lw 0x004#32) State.reset).1 = okay 0#32 ∧
    (transact (lw 0x024#32) State.reset).1 = okay 256#32 ∧
    (transact (lw 0x028#32) State.reset).1 = okay 92#32 ∧
    (transact (lw 0x02C#32) State.reset).1 = okay 16#32 := by decide

/-- V-B10, V-B11, V-B13: accesses while BUSY. -/
theorem test_busy_accesses :
    (transact (sw 0x010#32 5#32) (busyWith 1#32 State.reset)).2 =
      { busyWith 1#32 State.reset with hazerr := true } ∧
    (transact (lb (windowAddr .pixmem 0)) (busyWith 1#32 State.reset)) =
      (okay 0#32, { busyWith 1#32 State.reset with hazerr := true }) ∧
    (transact (lw 0x030#32) (busyWith 1#32 State.reset)) = (slverr, busyWith 1#32 State.reset) :=
  ⟨rfl, rfl, rfl⟩

/-- V-B14: a write of 0x02 to a STATUS of 0x22 leaves 0x20. -/
theorem test_status_w1c :
    readReg .status
      (transact (sw 0x008#32 0x2#32) { State.reset with done := true, hazerr := true }).2 = 0x20#32 := by
  decide

/-- The ports of 20_memory R60 carry V-B2's read. -/
theorem test_ports :
    transactionOfPorts false 0x80000002#32 2#2 0#32 = lw (windowAddr .pixmem 2) := by decide

/-- 30_encoding R100: `cmd`, `ack`, `fillb`. -/
theorem test_host_notation :
    cmd .extract = sw 0x004#32 2#32 ∧ Machine.ack = sw 0x008#32 0x22#32 ∧
    fillb (windowAddr .keymem 0) [0x6B#8, 0x80#8] =
      [sb 0x1000#32 0x6B#32, sb 0x1001#32 0x80#32] := by decide

/-! ### Witnesses: a state and operands that meet the hypotheses of each statement -/

/-- An accepted EMBED that fits exactly, in 16 pixels. -/
def fits : State := st 16 2 1 (bytes 64 0) (memOf [0x68, 0x69]) (memOf [0x6B])

/-- EMBED's input with a message one byte too long. -/
def tooLong : State := st 16 3 0 (bytes 64 0) (memOf [0x68, 0x69, 0x21]) []

/-- The invariant of an IDLE state that is not under reset. -/
theorem inv_of_idle {s : State} (hp : s.params.wf = true)
    (hm : ∀ M, memoryGood M s) (hi : s.engState = .idle) (hr : s.rst = false) : s.Inv :=
  ⟨hp, hm, fun h => (by rw [hi] at h; cases h), fun h => (by rw [hr] at h; cases h)⟩

theorem fits_memories : ∀ M, memoryGood M fits := by
  intro M; cases M <;> exact ⟨by decide +kernel, by decide +kernel⟩

theorem witness_ResetStateMeetsInvariant : Config.Params.reference.wf = true := by decide

/-- An IDLE state, a BUSY state and a state under reset that meet the invariant and step. -/
theorem witness_EveryStepKeepsInvariant :
    (fits.Inv ∧ ∃ t, step fits = .next t) ∧
    ((busyWith 1#32 fits).Inv ∧ ∃ t, step (busyWith 1#32 fits) = .next t) ∧
    ((assertReset fits).Inv ∧ ∃ t, step (assertReset fits) = .next t) :=
  ⟨⟨inv_of_idle (by decide) fits_memories rfl rfl, _, rfl⟩,
    ⟨⟨by decide, fits_memories, fun _ => rfl, fun h => (by cases h)⟩, _, rfl⟩,
    ⟨⟨by decide, fun M => by cases M <;> exact ⟨by decide, by decide⟩, fun h => (by cases h),
      fun _ => rfl⟩, _, rfl⟩⟩

theorem witness_StepAnswersUnlessTransactionDuringReset :
    State.reset.params.wf = true ∧
    (({ State.reset with rst := true, inputs := [.host (lw 0#32)] } : State).rst = true ∧
      ∃ t rest, ({ State.reset with rst := true, inputs := [.host (lw 0#32)] } : State).inputs =
        .host t :: rest) ∧
    (¬ (State.reset.rst = true ∧ ∃ t rest, State.reset.inputs = .host t :: rest)) :=
  ⟨by decide, ⟨rfl, _, _, rfl⟩, fun h => by cases h.1⟩

theorem witness_ResetAbandonsCommandInFlight :
    ({ busyWith 1#32 fits with
        inputs := [.assertReset, .engine, .engine, .releaseReset] } : State).inputs =
      .assertReset :: (List.replicate 2 .engine ++ .releaseReset :: []) := rfl

theorem witness_StepRunsTheDecodedCommand :
    decodeTableWord 32 2 = some .extract ∧
    ((busyWith 2#32 fits).engState = .busy ∧ (busyWith 2#32 fits).engOp = .command .extract ∧
      (busyWith 2#32 fits).inputs = []) ∧
    ({ busyWith 2#32 fits with inputs := [.engine] } : State).inputs = .engine :: [] ∧
    (fits.engState = .idle ∧ fits.inputs = []) ∧
    ({ fits with inputs := [.engine] } : State).inputs = .engine :: [] ∧
    (({ fits with inputs := [.host (lw 0#32)] } : State).rst = false ∧
      ({ fits with inputs := [.host (lw 0#32)] } : State).inputs = .host (lw 0#32) :: []) := by
  refine ⟨by decide, ⟨rfl, rfl, rfl⟩, rfl, ⟨rfl, rfl⟩, rfl, rfl, rfl⟩

theorem witness_IdleCommandWriteIsAccepted :
    State.reset.engState = .idle ∧ (busyWith 1#32 fits).engState = .busy ∧
      4 ≤ (4#32 : Word).toNat ∧ 4 ≤ (0xFFFFFFFF#32 : Word).toNat := by
  refine ⟨rfl, rfl, by decide, by decide⟩

theorem witness_IllegalWordCompletesWithIllegalCmd :
    State.reset.engState = .idle ∧ (4#32 : Word).extractLsb' 2 30 ≠ 0#30 ∧
      State.reset.hazerr = false := by
  refine ⟨rfl, by decide, rfl⟩

theorem witness_NopCompletesWithOkOnly :
    ({ State.reset with doneie := true } : State).hazerr = false ∧
      ({ State.reset with doneie := true } : State).doneie = true := ⟨rfl, rfl⟩

/-- In range with a key: the least key, and both lengths at their limits. -/
theorem witness_MixXorsMessageWithRepeatedKey :
    (fits.L ≤ fits.params.msgMax ∧ fits.K ≤ fits.params.keyMax ∧ 1 ≤ fits.K) ∧
    ((st 0 92 16 [] [] []).L ≤ (st 0 92 16 [] [] []).params.msgMax ∧
      (st 0 92 16 [] [] []).K ≤ (st 0 92 16 [] [] []).params.keyMax ∧
      1 ≤ (st 0 92 16 [] [] []).K) := by decide

theorem witness_MixWithoutKeyChangesNothing :
    (st 0 92 0 [] [] []).L ≤ (st 0 92 0 [] [] []).params.msgMax ∧ (st 0 92 0 [] [] []).K = 0 := by
  decide

/-- One above each limit (V-M7, V-M8). -/
theorem witness_MixRangeCheck :
    (st 0 93 0 [] [] []).L > (st 0 93 0 [] [] []).params.msgMax ∧
      (st 0 2 17 [] [] []).K > (st 0 2 17 [] [] []).params.keyMax := by decide

theorem witness_MixTwiceRestoresMessage :
    ∃ t, exec .mix fits = .next t ∧ ∃ s' : State, s'.params = t.params ∧ s'.msglen = t.msglen ∧
      s'.keylen = t.keylen ∧ (∀ a < fits.K, memRead .keymem a s' = memRead .keymem a t) ∧
      sameBytes .msgmem t s' :=
  ⟨_, rfl, _, rfl, rfl, rfl, fun _ _ => rfl, fun _ => rfl⟩

/-- One above each limit (V-E7, V-E7b, V-E7c). -/
theorem witness_EmbedRangeCheck :
    (st 257 0 0 [] [] []).P > (st 257 0 0 [] [] []).params.pixMax ∧
      (st 16 93 0 [] [] []).L > (st 16 93 0 [] [] []).params.msgMax ∧
      (st 16 2 17 [] [] []).K > (st 16 2 17 [] [] []).params.keyMax := by decide

theorem witness_EmbedCapacityBoundary :
    (fits.P ≤ fits.params.pixMax ∧ fits.L ≤ fits.params.msgMax ∧ fits.K ≤ fits.params.keyMax ∧
      32 + 8 * fits.L = 3 * fits.P) ∧
    (tooLong.P ≤ tooLong.params.pixMax ∧ tooLong.L ≤ tooLong.params.msgMax ∧
      tooLong.K ≤ tooLong.params.keyMax ∧ 32 + 8 * tooLong.L > 3 * tooLong.P) := by decide

/-- The exact fit, with a byte stored to and its bits, an alpha byte and a pixel past the payload. -/
theorem witness_EmbedWritesKeyedPayload :
    (fits.P ≤ fits.params.pixMax ∧ fits.L ≤ fits.params.msgMax ∧ fits.K ≤ fits.params.keyMax ∧
      32 + 8 * fits.L ≤ 3 * fits.P) ∧
    (47 < 32 + 8 * fits.L ∧ 1 ≤ 1) ∧ (∀ i < 32 + 8 * fits.L, (63 : Nat) ≠ chan i) ∧
    32 + 8 * fits.L ≤ 3 * 16 := by decide

theorem witness_EmbedKeyedPayloadBytes : 1 ≤ fits.K ∧ 1 < fits.L := by decide

/-- The least buffer for an empty message, one pixel fewer, no pixel, one pixel short, exact fit. -/
theorem witness_EmbedEmptyAndExactFit :
    ((st 11 0 0 [] [] []).P ≤ 256 ∧ (st 11 0 0 [] [] []).L = 0 ∧ 11 ≤ (st 11 0 0 [] [] []).P) ∧
    ((st 10 0 0 [] [] []).L = 0 ∧ (st 10 0 0 [] [] []).P ≤ 10) ∧ (st 0 2 0 [] [] []).P = 0 ∧
    32 + 8 * (st 15 2 0 [] [] []).L = 3 * ((st 15 2 0 [] [] []).P + 1) ∧
    (32 + 8 * fits.L = 3 * fits.P ∧ 62 < 4 * fits.P ∧ 62 % 4 ≠ 3) ∧
    fits.P ≤ fits.params.pixMax ∧ fits.L ≤ fits.params.msgMax ∧ fits.K ≤ fits.params.keyMax := by
  decide

theorem witness_AllZeroKeyEmbedsAsNoKey :
    (st 16 2 2 [] [] (bytes 2 0)).K ≤ (st 16 2 2 [] [] (bytes 2 0)).params.keyMax ∧
    ∀ a < (st 16 2 2 [] [] (bytes 2 0)).K, memRead .keymem a (st 16 2 2 [] [] (bytes 2 0)) = 0#8 := by
  decide +kernel

/-- Two states that differ in HDR and in a message byte beyond `L`. -/
theorem witness_EmbedReadsOnlyItsOperands :
    ∃ s' : State, s' ≠ fits ∧ s'.params = fits.params ∧ sameOperandRegs fits s' ∧
      (∀ a < fits.L, memRead .msgmem a s' = memRead .msgmem a fits) ∧
      (∀ a < fits.K, memRead .keymem a s' = memRead .keymem a fits) ∧
      ∀ a, memRead .pixmem a s' = memRead .pixmem a fits :=
  ⟨{ fits with hdr := 7#32, msgmem := memOf [0x68, 0x69, 0x21] },
    fun h => absurd (congrArg State.hdr h) (by decide), rfl, ⟨rfl, rfl, rfl⟩, by decide +kernel,
    fun _ _ => rfl, fun _ => rfl⟩

theorem witness_ExtractRangeCheck :
    (st 257 0 0 [] [] []).P > (st 257 0 0 [] [] []).params.pixMax ∧
      (st 16 0 17 [] [] []).K > (st 16 0 17 [] [] []).params.keyMax := by decide

theorem witness_ExtractTooSmallBuffer :
    (st 10 0 0 [] [] []).P ≤ (st 10 0 0 [] [] []).params.pixMax ∧
      (st 10 0 0 [] [] []).K ≤ (st 10 0 0 [] [] []).params.keyMax ∧ 3 * (st 10 0 0 [] [] []).P < 32 := by
  decide

theorem witness_ExtractScansEveryUsableChannel : 47 < 3 * fits.P := by decide

/-- A declared length of zero (V-X8) and the greatest declared length (V-X7), in 11 pixels. -/
theorem witness_ExtractRejectsInconsistentLength :
    ((st 11 0 0 (bytes 44 0) [] []).P ≤ 256 ∧ (st 11 0 0 (bytes 44 0) [] []).K ≤ 16 ∧
      32 ≤ 3 * (st 11 0 0 (bytes 44 0) [] []).P ∧
      0 = ∑ k ∈ Finset.range 32,
        ((decodedBits (st 11 0 0 (bytes 44 0) [] [])).getD k false).toNat * 2 ^ (31 - k)) ∧
    (0xFFFFFFFF = ∑ k ∈ Finset.range 32,
        ((decodedBits (st 11 0 0 (bytes 44 1) [] [])).getD k false).toNat * 2 ^ (31 - k) ∧
      32 + 8 * 0xFFFFFFFF > 3 * (st 11 0 0 (bytes 44 1) [] []).P) := by
  decide +kernel

/-- P1's pixels with their key: a declared length of 2, which fits exactly. -/
theorem witness_ExtractRecoversDeclaredBytes :
    (st 16 0 1 embedded [] (memOf [0x6B])).params.wf = true ∧
    (st 16 0 1 embedded [] (memOf [0x6B])).P ≤ 256 ∧ (st 16 0 1 embedded [] (memOf [0x6B])).K ≤ 16 ∧
    2 = ∑ k ∈ Finset.range 32,
      ((decodedBits (st 16 0 1 embedded [] (memOf [0x6B]))).getD k false).toNat * 2 ^ (31 - k) ∧
    32 + 8 * 2 ≤ 3 * (st 16 0 1 embedded [] (memOf [0x6B])).P := by
  decide +kernel

/-- 11 and 13 pixels, all usable bits zero, all usable bits one. -/
theorem witness_ExtractUniformAndSmallBuffers :
    ((st 11 0 0 (bytes 44 0) [] []).P ≤ 256 ∧ (st 11 0 0 (bytes 44 0) [] []).K = 0 ∧
      11 ≤ (st 11 0 0 (bytes 44 0) [] []).P ∧
      ∀ i < 3 * (st 11 0 0 (bytes 44 0) [] []).P,
        (memRead .pixmem (chan i) (st 11 0 0 (bytes 44 0) [] [])).getLsbD 0 = false) ∧
    (∀ i < 3 * (st 11 0 0 (bytes 44 1) [] []).P,
        (memRead .pixmem (chan i) (st 11 0 0 (bytes 44 1) [] [])).getLsbD 0 = true) ∧
    (st 13 0 0 [] [] []).P ≤ 13 := by
  decide +kernel

theorem witness_ExtractTwiceGivesSameState : fits.params.wf = true := by decide

theorem witness_ExtractReadsNoMessage :
    (st 16 0 1 embedded [] (memOf [0x6B])).params.wf = true ∧
    got State.result (exec .extract (st 16 0 1 embedded [] (memOf [0x6B]))) = some .ok ∧
    got State.result (exec .extract (st 10 0 0 [] [] [])) = some .noMsgTooSmall ∧
    got State.L (exec .extract (st 16 0 1 embedded [] (memOf [0x6B]))) = some 2 := by
  decide +kernel

theorem fits_in_range :
    fits.params.wf = true ∧ fits.P ≤ fits.params.pixMax ∧ fits.K ≤ fits.params.keyMax ∧ 1 ≤ fits.L ∧
      fits.L ≤ fits.params.msgMax ∧ 32 + 8 * fits.L ≤ 3 * fits.P := by decide

theorem witness_ExtractRecoversEmbeddedMessage :
    (fits.params.wf = true ∧ fits.P ≤ fits.params.pixMax ∧ fits.K ≤ fits.params.keyMax ∧
      1 ≤ fits.L ∧ fits.L ≤ fits.params.msgMax ∧ 32 + 8 * fits.L ≤ 3 * fits.P) ∧
    ∃ t s' : State, exec .embed fits = .next t ∧ s'.params = t.params ∧ s'.pixcount = t.pixcount ∧
      s'.keylen = t.keylen ∧ (∀ a < fits.K, memRead .keymem a s' = memRead .keymem a t) ∧
      ∀ a < 4 * fits.P, a % 4 ≠ 3 → memRead .pixmem a s' = memRead .pixmem a t :=
  ⟨fits_in_range, _, _, rfl, rfl, rfl, rfl, fun _ _ => rfl, fun _ _ _ => rfl⟩

/-- The state EMBED left, with another key of 16 bytes. -/
theorem witness_MessageComesBackIffKeystreamsAgree :
    (fits.params.wf = true ∧ fits.P ≤ fits.params.pixMax ∧ fits.K ≤ fits.params.keyMax ∧
      1 ≤ fits.L ∧ fits.L ≤ fits.params.msgMax ∧ 32 + 8 * fits.L ≤ 3 * fits.P) ∧
    ∃ t s' : State, exec .embed fits = .next t ∧ s'.params = t.params ∧ s'.pixcount = t.pixcount ∧
      s'.K ≤ fits.params.keyMax ∧
      ∀ a < 4 * fits.P, a % 4 ≠ 3 → memRead .pixmem a s' = memRead .pixmem a t :=
  ⟨fits_in_range, next fits (exec .embed fits),
    { next fits (exec .embed fits) with keylen := 16#32, keymem := bytes 16 0x6A }, rfl, rfl, rfl,
    by decide, fun _ _ _ => rfl⟩

theorem witness_EmptyMessageReadsBackAsNoMessage :
    ((st 11 0 1 [] [] (memOf [0x6B])).P ≤ 256 ∧ (st 11 0 1 [] [] (memOf [0x6B])).K ≤ 16 ∧
      (st 11 0 1 [] [] (memOf [0x6B])).L = 0 ∧ 11 ≤ (st 11 0 1 [] [] (memOf [0x6B])).P) ∧
    (∀ i < 32, (42 : Nat) ≠ chan i) ∧
    ∃ t s' : State, exec .embed (st 11 0 1 [] [] (memOf [0x6B])) = .next t ∧ s'.params = t.params ∧
      s'.pixcount = t.pixcount ∧ s'.keylen = t.keylen ∧
      (∀ a < 1, memRead .keymem a s' = memRead .keymem a t) ∧
      ∀ a < 4 * 11, a % 4 ≠ 3 → memRead .pixmem a s' = memRead .pixmem a t :=
  ⟨by decide, by decide, _, _, rfl, rfl, rfl, rfl, fun _ _ => rfl, fun _ _ _ => rfl⟩

theorem witness_AlphaBytesAreNeverTouched : ∃ t, engineStep (busyWith 1#32 fits) = .next t :=
  ⟨_, rfl⟩

/-- A completion with each of the five failures. -/
theorem witness_FailuresChangeNothingElse :
    got State.result (engineStep (busyWith 1#32 tooLong)) = some .capacityExceeded ∧
    got State.result (engineStep (busyWith 2#32 (st 10 0 0 [] [] []))) = some .noMsgTooSmall ∧
    got State.result (engineStep (busyWith 4#32 fits)) = some .illegalCmd ∧
    got State.result (engineStep (busyWith 3#32 (st 0 93 0 [] [] []))) = some .badParam ∧
    got State.result (engineStep (busyWith 2#32 (st 11 0 0 (bytes 44 0) [] []))) =
      some .noMsgBadLength := by
  decide +kernel

/-- Each operation accepted. -/
theorem witness_ResultIsFirstApplicableCause :
    fits.params.wf = true ∧ (∀ v, (busyWith v fits).engState = .busy) ∧
    (busyWith 4#32 fits).engOp = .illegal ∧ (busyWith 0#32 fits).engOp = .command .nop ∧
    (busyWith 3#32 fits).engOp = .command .mix ∧ (busyWith 1#32 fits).engOp = .command .embed ∧
    (busyWith 2#32 fits).engOp = .command .extract :=
  ⟨by decide, fun _ => rfl, rfl, rfl, rfl, rfl, rfl⟩

/-- NOP meets the premise of every clause. -/
theorem witness_CommandsWriteOnlyTheirTargets :
    (busyWith 0#32 fits).engState = .busy ∧ (∃ t, engineStep (busyWith 0#32 fits) = .next t) ∧
    (busyWith 0#32 fits).engOp ≠ .command .embed ∧ (busyWith 0#32 fits).engOp ≠ .command .extract ∧
    (busyWith 0#32 fits).engOp ≠ .command .mix :=
  ⟨rfl, ⟨_, rfl⟩, by decide, by decide, by decide⟩

/-- EMBED accepted, then a refused window write and an INTEN write, then the completion. -/
theorem witness_CompletionIgnoresTransactionsWhileBusy :
    ∃ s : State, s.params.wf = true ∧ s.rst = false ∧ s.engState = .idle ∧
      s.inputs = .host (sw Reg.cmd.offset 1#32) ::
        ([sw (windowAddr .pixmem 0) 0xFFFFFFFF#32, sw 0x00C#32 1#32].map Event.host ++ .engine :: []) :=
  ⟨{ fits with inputs := [.host (sw Reg.cmd.offset 1#32),
      .host (sw (windowAddr .pixmem 0) 0xFFFFFFFF#32), .host (sw 0x00C#32 1#32), .engine] },
    by decide, rfl, rfl, rfl⟩

theorem witness_AcceptedCommandEventuallyCompletes :
    ∃ s : State, s.params.wf = true ∧ s.rst = false ∧ s.engState = .busy ∧
      Event.assertReset ∉ s.inputs :=
  ⟨{ busyWith 1#32 fits with inputs := [.host (lw 0x008#32)] }, by decide, rfl, rfl, by
    simp⟩

theorem witness_BitConversionsAreInverse :
    (List.replicate 16 true).length = 8 * 2 ∧ 1 < [0x68#8, 0x69#8].length ∧ 7 < 8 := by decide

theorem witness_MixerXorsRepeatedKeyBits :
    1 ≤ [0x80#8].length ∧ 9 < 10 ∧ 2 < [true, false, true].length := by decide

theorem witness_MixerActsOnInitialSegments : 1 ≤ [0x80#8].length ∧ 3 ≤ 3 := by decide

theorem witness_MixerByteForm : 1 ≤ [0x01#8, 0x80#8].length := by decide

/-- V-D9: the keys 6B and 6B 6B have the same bits up to repetition. -/
theorem witness_RepeatedKeysCollide :
    1 ≤ [0x6B#8].length ∧ 1 ≤ [0x6B#8, 0x6B#8].length ∧
    ∀ i, (bytesToBits [0x6B#8]).getD (i % (8 * [0x6B#8].length)) false =
      (bytesToBits [0x6B#8, 0x6B#8]).getD (i % (8 * [0x6B#8, 0x6B#8].length)) false := by
  refine ⟨by decide, by decide, fun i => ?_⟩
  have h : ∀ j < 16, (bytesToBits [0x6B#8]).getD (j % 8) false =
      (bytesToBits [0x6B#8, 0x6B#8]).getD j false := by decide
  have h1 : i % 16 % 8 = i % 8 := by omega
  have h2 := h (i % 16) (by omega)
  rw [h1] at h2
  exact h2

theorem witness_ChannelWalkCoversUsableBytes : 2 < 3 ∧ (∃ i < 3 * 1, chan i = 2) := by decide

theorem witness_LengthPrefixRoundTrip : 32 ≤ (be32bits 2#32).length ∧ 31 < 32 := by decide

/-- A bus error, a legal register access and a legal window access. -/
theorem witness_BusErrorsChangeNothing :
    State.reset.params.wf = true ∧ (transact (lw 0x030#32) State.reset).1.resp = .slverr ∧
    legalRegister (lw 0x02C#32) ∧ ¬ legalRegister (lw 0x030#32) ∧ ¬ legalRegister (lb 0x008#32) :=
  ⟨by decide, by decide, ⟨rfl, by decide, by decide⟩, fun h => absurd h.2.2 (by decide),
    fun h => by cases h.1⟩

/-- The last word of each window is legal, and so are a byte and a halfword. -/
theorem legal_windows (p : Config.Params) (hp : p = Config.Params.reference) :
    legalWindow p .pixmem (lw (windowAddr .pixmem 1020)) ∧
    legalWindow p .msgmem (sh (windowAddr .msgmem 90) 0#32) ∧
    legalWindow p .keymem (lb (windowAddr .keymem 15)) := by
  subst hp
  refine ⟨⟨by decide, by decide, fun i hi => ⟨1020 + i, ?_, ?_⟩⟩,
    ⟨by decide, by decide, fun i hi => ⟨90 + i, ?_, ?_⟩⟩,
    ⟨by decide, by decide, fun i hi => ⟨15 + i, ?_, ?_⟩⟩⟩ <;>
  simp only [lw, sh, lb, BusSize.bytes, windowAddr, windowBase, memSize, Config.Params.reference,
    BitVec.toNat_ofNat] at * <;> omega

/-- A read and a write, in an IDLE block. -/
theorem witness_WindowAccessIsLittleEndian :
    State.reset.params.wf = true ∧ State.reset.engState = .idle ∧
    (legalWindow State.reset.params .pixmem (lw (windowAddr .pixmem 1020)) ∧
      (lw (windowAddr .pixmem 1020)).kind = .read ∧ 3 < (lw (windowAddr .pixmem 1020)).size.bytes) ∧
    (legalWindow State.reset.params .msgmem (sh (windowAddr .msgmem 90) 0#32) ∧
      (sh (windowAddr .msgmem 90) 0#32).kind = .write ∧
      ∀ i < (sh (windowAddr .msgmem 90) 0#32).size.bytes,
        (92 : Nat) ≠ windowOffset .msgmem (sh (windowAddr .msgmem 90) 0#32) + i) :=
  ⟨by decide, rfl, ⟨(legal_windows _ rfl).1, rfl, by decide⟩, (legal_windows _ rfl).2.1, rfl,
    by decide⟩

theorem witness_WindowAccessWhileBusyIsRefused :
    (busyWith 1#32 fits).params.wf = true ∧ (busyWith 1#32 fits).engState = .busy ∧
      legalWindow (busyWith 1#32 fits).params .keymem (lb (windowAddr .keymem 15)) :=
  ⟨by decide, rfl, (legal_windows _ rfl).2.2⟩

theorem witness_BusyWriteRule : (busyWith 1#32 fits).engState = .busy := rfl

theorem witness_RegisterMapReadsAndWrites :
    (st 256 0 0 [] [] []).params.wf = true ∧ (st 256 0 0 [] [] []).engState = .idle ∧
      (st 256 0 0 [] [] []).pixcount.toNat ≤ (st 256 0 0 [] [] []).params.pixMax := by
  refine ⟨by decide, rfl, by decide⟩

theorem witness_StatusRegisterFields : (busyWith 1#32 fits).engState = .busy ∧ 6 ≤ 6 := ⟨rfl, le_rfl⟩

theorem witness_InterruptIsDoneAndEnabled :
    (0x22#32 : Word).getLsbD 1 = true ∧ (busyWith 0#32 fits).engState = .busy ∧
      (∃ t, engineStep (busyWith 0#32 fits) = .next t) :=
  ⟨by decide, rfl, _, rfl⟩

/-- HAZERR and DONE both cleared: by a STATUS write, and by a reset; DONE by an accepted command. -/
theorem witness_StickyFlagsAreClearedOnlyAsStated :
    (∃ s t : State, step s = .next t ∧ s.hazerr = true ∧ t.hazerr = false ∧ s.done = true ∧
      t.done = false ∧ s.inputs = [.host (sw 0x008#32 0x22#32)]) ∧
    (∃ s t : State, step s = .next t ∧ s.hazerr = true ∧ t.hazerr = false ∧ s.done = true ∧
      t.done = false ∧ s.inputs = [.assertReset]) ∧
    (∃ s t : State, step s = .next t ∧ s.done = true ∧ t.done = false ∧
      s.inputs = [.host (sw 0x004#32 0#32)]) :=
  ⟨⟨{ State.reset with hazerr := true, done := true, inputs := [.host (sw 0x008#32 0x22#32)] }, _,
      rfl, rfl, rfl, rfl, rfl, rfl⟩,
    ⟨{ State.reset with hazerr := true, done := true, inputs := [.assertReset] }, _,
      rfl, rfl, rfl, rfl, rfl, rfl⟩,
    ⟨{ State.reset with done := true, inputs := [.host (sw 0x004#32 0#32)] }, _, rfl, rfl, rfl, rfl⟩⟩

theorem witness_SameCycleResolutions :
    (busyWith 0#32 fits).params.wf = true ∧ (busyWith 0#32 fits).rst = false ∧
      (busyWith 0#32 fits).engState = .busy ∧ (2#32 : Word).getLsbD 1 = true :=
  ⟨by decide, rfl, rfl, by decide⟩

theorem witness_ReadsHaveNoEffectAndWritesAreIdempotent :
    (lw 0x008#32).kind = .read ∧ State.reset.engState = .idle ∧ legalRegister (lw 0x008#32) ∧
      (sw 0x010#32 5#32).kind = .write ∧ (sw 0x010#32 5#32).addr ≠ Reg.cmd.offset :=
  ⟨rfl, rfl, ⟨rfl, by decide, by decide⟩, rfl, by decide⟩

theorem witness_WaitLoopsWhileBusy :
    (busyWith 1#32 fits).engState = .busy ∧ fits.engState = .idle := ⟨rfl, rfl⟩

end Sys2Proof.Tests
end

section
/-! The registers and the interrupt output (10_state R22 to R37): what a register write does under the
BUSY write rule, what the computed registers read as, and the statements O53, O54 and O56. -/

namespace Sys2Proof.Machine

/-! ### Register writes -/

theorem unlessBusy_of_busy {s : State} (hb : s.engState = .busy) (write : State → State) :
    unlessBusy write s = setHazard s :=
  if_pos ((busy_eq_true_iff s).2 hb)

theorem unlessBusy_of_idle {s : State} (hi : s.engState = .idle) (write : State → State) :
    unlessBusy write s = write s :=
  if_neg (by simp [hi])

/-- R23: the registers whose write is refused while BUSY. -/
theorem writeReg_of_busy {s : State} (hb : s.engState = .busy) {r : Reg}
    (hr : r = .cmd ∨ r = .pixcount ∨ r = .msglen ∨ r = .keylen) (v : Word) :
    writeReg r v s = setHazard s := by
  rcases hr with rfl | rfl | rfl | rfl <;> simp only [writeReg, unlessBusy_of_busy hb]

/-- R22: a write to a read-only register is ignored, BUSY or not. -/
theorem writeReg_readOnly {r : Reg}
    (hr : r = .id ∨ r = .capbits ∨ r = .hdr ∨ r = .pixmax ∨ r = .msgmax ∨ r = .keymax)
    (v : Word) (s : State) : writeReg r v s = s := by
  rcases hr with rfl | rfl | rfl | rfl | rfl | rfl <;> rfl

/-- While BUSY no register write reaches an operand register (R23). -/
theorem sameOperandRegs_writeReg_of_busy {s : State} (hb : s.engState = .busy) (r : Reg) (v : Word) :
    sameOperandRegs s (writeReg r v s) := by
  cases r <;> simp [writeReg, unlessBusy_of_busy hb, sameOperandRegs]

/-- While BUSY no transaction reaches an operand register (R23, R73), whatever DONE is (`transact_busy`
asks for DONE = 0). -/
theorem sameOperandRegs_transact_of_busy {s : State} (hb : s.engState = .busy) (t : Transaction) :
    sameOperandRegs s (transact t s).2 := by
  rcases transact_state_cases t s with h | ⟨h, -⟩ | ⟨r, -, -, -, h⟩ | ⟨M, a, hi, -, -, -⟩
  · rw [h]
    exact ⟨rfl, rfl, rfl⟩
  · rw [h]
    exact ⟨rfl, rfl, rfl⟩
  · rw [h]
    exact sameOperandRegs_writeReg_of_busy hb r t.wdata
  · rw [hb] at hi
    cases hi

/-- HDR is read-only to the host (R32). -/
theorem transact_hdr (t : Transaction) (s : State) : (transact t s).2.hdr = s.hdr := by
  obtain ⟨-, -, -, -, hhdr, -, -⟩ := transact_frame t s
  exact hhdr

/-! ### The computed registers -/

/-- R31: CAPBITS wraps modulo 2^32. -/
theorem capbitsWord_toNat (s : State) : (capbitsWord s).toNat = 3 * s.pixcount.toNat % 2 ^ 32 :=
  BitVec.toNat_ofNat ..

/-- Under R8 the three parameters fit in a register, and so does the capacity `3 * PIX_MAX`. -/
theorem params_lt_of_wf {p : Config.Params} (hw : p.wf = true) :
    3 * p.pixMax < 2 ^ 32 ∧ p.msgMax < 2 ^ 32 ∧ p.keyMax < 2 ^ 32 := by
  simp only [Config.Params.wf, Bool.and_eq_true, decide_eq_true_eq] at hw
  omega

/-- R33: under R8 the parameter registers read the parameters. -/
theorem readReg_params_toNat {s : State} (hw : s.params.wf = true) :
    (readReg .pixmax s).toNat = s.params.pixMax ∧ (readReg .msgmax s).toNat = s.params.msgMax ∧
      (readReg .keymax s).toNat = s.params.keyMax := by
  obtain ⟨hpix, hmsg, hkey⟩ := params_lt_of_wf hw
  simp only [readReg, BitVec.toNat_ofNat]
  exact ⟨Nat.mod_eq_of_lt (by omega), Nat.mod_eq_of_lt hmsg, Nat.mod_eq_of_lt hkey⟩

/-- R31: CAPBITS does not wrap for a PIXCOUNT in range. -/
theorem capbitsWord_toNat_of_le {s : State} (hw : s.params.wf = true)
    (hp : s.pixcount.toNat ≤ s.params.pixMax) : (capbitsWord s).toNat = 3 * s.pixcount.toNat := by
  obtain ⟨hpix, -, -⟩ := params_lt_of_wf hw
  rw [capbitsWord_toNat, Nat.mod_eq_of_lt (by omega)]

/-- R26: STATUS bit 1 is DONE. -/
theorem statusWord_getLsbD_one (s : State) : (statusWord s).getLsbD 1 = s.done := by
  simp only [statusWord, BitVec.getLsbD_append]
  simp

/-- R27: INTEN bit 0 is DONEIE. -/
theorem intenWord_getLsbD_zero (s : State) : (intenWord s).getLsbD 0 = s.doneie := by
  simp only [intenWord, BitVec.getLsbD_append]
  simp

/-- R27: the other bits of INTEN read 0. -/
theorem intenWord_getLsbD_of_pos (s : State) {i : Nat} (hi : 1 ≤ i) :
    (intenWord s).getLsbD i = false := by
  have h0 : ¬ i < 1 := by omega
  simp only [intenWord, BitVec.getLsbD_append]
  simp [h0]

/-! ### The interrupt output -/

/-- R37 on what the host can read. -/
theorem irq_eq_read_bits (s : State) :
    irq s = ((readReg .status s).getLsbD 1 && (readReg .inten s).getLsbD 0) :=
  (congrArg₂ and (statusWord_getLsbD_one s) (intenWord_getLsbD_zero s)).symm

/-- R217: without DONE there is no interrupt. -/
theorem irq_of_not_done {s : State} (hd : s.done = false) : irq s = false := by simp [irq, hd]

/-- R217: a completion raises the interrupt exactly where DONEIE is set. -/
theorem irq_of_completedWith {c : Result} {s t : State} (h : completedWith c s t) :
    irq t = s.doneie := by
  obtain ⟨-, -, hdone, -, -, hdoneie⟩ := h
  simp [irq, hdone, hdoneie]

end Sys2Proof.Machine

namespace Sys2Proof.Proofs

open Sys2Proof.Machine

/-- Settles O53: each write is `writeReg` of its register, by the BUSY write rule the refused ones are
`setHazard`, and no transaction while BUSY reaches MSGLEN or HDR. -/
theorem busyWriteRule : Obligations.BusyWriteRule := by
  unfold Obligations.BusyWriteRule
  refine ⟨fun s v r hb hr => ?_, fun s v => ⟨transact_sw .status v s, transact_sw .inten v s⟩,
    fun s r => transact_lw r s, fun s t hb => ?_, fun s v => ⟨accept_msglen v s, accept_hdr v s⟩⟩
  · rw [transact_sw, writeReg_of_busy hb hr]
    rfl
  · obtain ⟨-, hmsglen, -⟩ := sameOperandRegs_transact_of_busy hb t
    exact ⟨hmsglen, transact_hdr t s⟩

/-- Settles O54: the reads are the register's own field or its computed word, and the writes go through
`writeReg_readOnly` and, while IDLE, `unlessBusy_of_idle`. -/
theorem registerMapReadsAndWrites : Obligations.RegisterMapReadsAndWrites := by
  unfold Obligations.RegisterMapReadsAndWrites
  refine ⟨by decide, fun s => ⟨rfl, rfl, rfl, rfl, rfl, rfl, capbitsWord_toNat s, fun hw => ?_⟩,
    fun s v r hr => ?_, fun s v hi => ?_⟩
  · obtain ⟨hpix, hmsg, hkey⟩ := readReg_params_toNat hw
    exact ⟨hpix, hmsg, hkey, capbitsWord_toNat_of_le hw⟩
  · rw [transact_sw, writeReg_readOnly hr]
    rfl
  · simp only [transact_sw, writeReg, unlessBusy_of_idle hi, okay, and_self]

/-- Settles O56: `irq` is `DONE AND DONEIE` by definition; a cleared DONE makes it 0, and a completion
sets DONE and keeps DONEIE. -/
theorem interruptIsDoneAndEnabled : Obligations.InterruptIsDoneAndEnabled := by
  unfold Obligations.InterruptIsDoneAndEnabled
  refine ⟨fun s => ⟨rfl, irq_eq_read_bits s, fun i hi => intenWord_getLsbD_of_pos s hi⟩,
    fun s w => ⟨writeInten_doneie w s, writeInten_done w s⟩,
    fun s w hw => irq_of_not_done ?_, fun s v => irq_of_not_done (accept_done v s),
    fun s t hb h => ?_⟩
  · simp [writeReg, hw]
  · obtain ⟨hcompleted, -⟩ := engineStep_frame hb h
    exact irq_of_completedWith hcompleted

end Sys2Proof.Proofs
end

section
/-! The host's bus (20_memory R62 to R75): when the address decode finds nothing, what a bus error and a
window access while BUSY leave, and the statements O50 and O52. -/

namespace Sys2Proof.Machine

/-! ### The address decode -/

/-- R66: a legal register access is a 4-byte access at a register's offset. -/
theorem legalRegister_iff (t : Transaction) :
    legalRegister t ↔ t.size = .four ∧ ∃ r : Reg, t.addr = r.offset := by
  rw [offset_iff, legalRegister]

/-- R62 to R67: under R8 the address decode finds nothing exactly where no legal access is made. -/
theorem target_eq_none_iff {p : Config.Params} (hw : p.wf = true) (t : Transaction) :
    target p t = none ↔ ¬ legalRegister t ∧ ¬ ∃ M, legalWindow p M t := by
  constructor
  · intro hnone
    refine ⟨fun hreg => ?_, fun ⟨M, hwin⟩ => ?_⟩
    · obtain ⟨hsize, r, haddr⟩ := (legalRegister_iff t).1 hreg
      simp [target_reg p t r hsize haddr] at hnone
    · simp [target_window hw hwin] at hnone
  · rintro ⟨hreg, hwin⟩
    rcases target_cases p t with hnone | ⟨r, -, hsize, haddr⟩ | ⟨M, -, hlegal⟩
    · exact hnone
    · exact absurd ((legalRegister_iff t).2 ⟨hsize, r, haddr⟩) hreg
    · exact absurd ⟨M, (legalWindow_iff p M t).2 hlegal⟩ hwin

/-! ### Bus errors -/

/-- R68: what the address decode does not find is answered with SLVERR and changes nothing. -/
theorem transact_of_target_none {t : Transaction} {s : State} (h : target s.params t = none) :
    transact t s = (slverr, s) := by
  simp only [transact, h]

/-- R61: what the address decode finds is answered with OKAY, BUSY or not. -/
theorem transact_resp_of_target_some {t : Transaction} {s : State} {T : Target}
    (h : target s.params t = some T) : (transact t s).1.resp = .okay := by
  cases T with
  | reg r => cases hk : t.kind <;> simp only [transact, h, hk, okay]
  | window M a =>
    cases hk : t.kind
    case read =>
      simp only [transact, h, hk, windowRead]
      split <;> rfl
    case write =>
      simp only [transact, h, hk, windowWrite]
      split <;> rfl

/-- R67: SLVERR is the answer of the address decode alone. -/
theorem transact_resp_eq_slverr_iff (t : Transaction) (s : State) :
    (transact t s).1.resp = .slverr ↔ target s.params t = none := by
  cases h : target s.params t with
  | none => simp [transact_of_target_none h, slverr]
  | some T => simp [transact_resp_of_target_some h]

/-! ### Windows while BUSY -/

/-- R74 and R75: while BUSY a window access of either kind is answered with 0 and sets HAZERR. -/
theorem transact_window_of_busy {t : Transaction} {s : State} {M : MemName} {a : Nat}
    (hb : s.engState = .busy) (h : target s.params t = some (.window M a)) :
    transact t s = (okay 0#32, setHazard s) := by
  have hbusy : s.busy = true := (busy_eq_true_iff s).2 hb
  cases hk : t.kind
  case read => simp only [transact, h, hk, windowRead, if_pos hbusy]
  case write => simp only [transact, h, hk, windowWrite, if_pos hbusy]

end Sys2Proof.Machine

namespace Sys2Proof.Proofs

open Sys2Proof.Machine

/-- Settles O50: SLVERR is given exactly where the address decode finds nothing, which is where no legal
access is made, and the state is then the old one. -/
theorem busErrorsChangeNothing : Obligations.BusErrorsChangeNothing := by
  unfold Obligations.BusErrorsChangeNothing
  intro s t hw
  rw [transact_resp_eq_slverr_iff]
  refine ⟨target_eq_none_iff hw t, fun hnone => ?_⟩
  rw [transact_of_target_none hnone]
  exact ⟨rfl, rfl⟩

/-- Settles O52: a legal window access reaches its window, and while BUSY that is refused. -/
theorem windowAccessWhileBusyIsRefused : Obligations.WindowAccessWhileBusyIsRefused := by
  unfold Obligations.WindowAccessWhileBusyIsRefused
  intro s t M hw hb hlegal
  exact transact_window_of_busy hb (target_window hw hlegal)

end Sys2Proof.Proofs
end

section
/-! The command word and the length prefix (30_encoding R90 to R98): a word is its two fields, so that
decode and encode are inverses; the prefix parse as a sum; and the statements O11 and O49. -/

namespace Sys2Proof

/-! ### The command word -/

/-- R90: the two fields make the word. -/
theorem cmdRsv_append_cmdOp (w : Word) : cmdRsv w ++ cmdOp w = w :=
  (BitVec.extractLsb'_append_extractLsb'_eq_extractLsb' rfl).trans BitVec.extractLsb'_eq_self

/-- R91: a command's word is its operation code under a zero RSV. -/
theorem encode_opInstr (op : BitVec 2) : encode (opInstr op) = 0#30 ++ op := by
  revert op
  decide

/-- R91 and R92: the legal words are those with RSV = 0, and OP alone names the command. -/
theorem decode_eq_ok_iff_fields (w : Word) (i : Instr) :
    decode w = .ok i ↔ cmdRsv w = 0#30 ∧ opInstr (cmdOp w) = i := by
  unfold decode
  split <;> simp [*]

/-- R91: each command's word decodes to that command. -/
theorem decode_encode (i : Instr) : decode (encode i) = .ok i := by
  cases i <;> rfl

/-- R91: a command has no other word than its encoding. -/
theorem eq_encode_of_decode_eq_ok {w : Word} {i : Instr} (h : decode w = .ok i) : w = encode i := by
  obtain ⟨hrsv, hop⟩ := (decode_eq_ok_iff_fields w i).1 h
  calc w = cmdRsv w ++ cmdOp w := (cmdRsv_append_cmdOp w).symm
    _ = 0#30 ++ cmdOp w := by rw [hrsv]
    _ = encode (opInstr (cmdOp w)) := (encode_opInstr _).symm
    _ = encode i := by rw [hop]

theorem decode_eq_ok_iff (w : Word) (i : Instr) : decode w = .ok i ↔ w = encode i :=
  ⟨eq_encode_of_decode_eq_ok, fun h => h ▸ decode_encode i⟩

/-- A word on the bus lanes decodes as the word does, and what follows its four bytes is left. -/
theorem decodeBytes_bytesOfWord_eq_ok_iff (w : Word) (rest : List Byte) (i : Instr) :
    decodeBytes (bytesOfWord w ++ rest) = .ok (i, rest) ↔ decode w = .ok i := by
  rw [decodeBytes_bytesOfWord]
  cases decode w <;> simp

end Sys2Proof

namespace Sys2Proof.Machine

/-! ### The parse of the length prefix -/

/-- R98: element `k` of the prefix weighs `2^(31-k)`. -/
theorem declaredByteLength_eq_sum {d : BitString} (h : 32 ≤ d.length) :
    declaredByteLength d = ∑ k ∈ Finset.range 32, (d.getD k false).toNat * 2 ^ (31 - k) := by
  have hlen : (slice d 0 32).length = 32 := by simpa [slice] using h
  rw [declaredByteLength, bitsToNat_eq_sum, hlen]
  refine Finset.sum_congr rfl fun k hk => ?_
  have hget : (slice d 0 32).getD k false = d.getD k false := by
    simp [slice, Finset.mem_range.1 hk]
  rw [hget]

end Sys2Proof.Machine

namespace Sys2Proof.Proofs

open Sys2Proof.Machine

/-- Settles O11: a word is RSV over OP, and a command's encoding is its OP under RSV = 0. -/
theorem decodeAndEncodeAgree : Obligations.DecodeAndEncodeAgree := by
  unfold Obligations.DecodeAndEncodeAgree
  exact ⟨decode_eq_ok_iff, ⟨rfl, rfl, rfl, rfl⟩, fun w => (decodeOp_illegal_iff w).symm,
    decodeBytes_bytesOfWord_eq_ok_iff⟩

/-- Settles O49: the prefix element by element, its parse as a sum below `2^32`, and the parse of a
prefix, which reads the number that its bits stand for. -/
theorem lengthPrefixRoundTrip : Obligations.LengthPrefixRoundTrip := by
  unfold Obligations.LengthPrefixRoundTrip
  exact ⟨fun v => ⟨be32bits_length v, be32bits_getD v⟩,
    fun d hd => ⟨declaredByteLength_eq_sum hd, Nat.le_sub_one_of_lt (declaredByteLength_lt d)⟩,
    declaredByteLength_be32bits⟩

end Sys2Proof.Proofs
end

section
/-! The datapath primitives (40_datapath R120 to R130): the two conversions are inverses, the mixer XORs a
periodic key stream, the channel walk meets each usable byte once; and the statements O42 to O48. -/

namespace Sys2Proof.Machine

/-! ### Bytes and bits -/

theorem getD_take_of_lt (s : BitString) {i n : Nat} (h : i < n) :
    (s.take n).getD i false = s.getD i false := by
  simp only [List.getD_eq_getElem?_getD, List.getElem?_take_of_lt h]

/-- R122: bytes survive the way to bits and back. -/
theorem bitsToBytes_bytesToBits (B : List Byte) : bitsToBytes (bytesToBits B) = B := by
  induction B with
  | nil => rfl
  | cons b B ih =>
    rw [bytesToBits, bitsToBytes_append _ (byteBits_length b), ofNat_bitsToNat_byteBits, ih]

/-- R122: whole bytes of bits survive the way to bytes and back. -/
theorem bytesToBits_bitsToBytes (n : Nat) (s : BitString) (h : s.length = 8 * n) :
    bytesToBits (bitsToBytes s) = s := by
  induction n generalizing s with
  | zero =>
    obtain rfl := List.length_eq_zero_iff.1 h
    rfl
  | succ n ih =>
    have hg : (s.take 8).length = 8 := by simp; omega
    calc bytesToBits (bitsToBytes s)
        = bytesToBits (bitsToBytes (s.take 8 ++ s.drop 8)) := by rw [List.take_append_drop]
      _ = s.take 8 ++ bytesToBits (bitsToBytes (s.drop 8)) := by
        rw [bitsToBytes_append _ hg, bytesToBits, byteBits_ofNat_bitsToNat _ hg]
      _ = s.take 8 ++ s.drop 8 := by rw [ih _ (by simp; omega)]
      _ = s := List.take_append_drop 8 s

/-- R121: byte `j` is the sum in which element `8*j + t` weighs `2^(7-t)`. -/
theorem bitsToBytes_getD_toNat {n j : Nat} {s : BitString} (h : s.length = 8 * n) (hj : j < n) :
    ((bitsToBytes s).getD j 0#8).toNat =
      ∑ t ∈ Finset.range 8, (s.getD (8 * j + t) false).toNat * 2 ^ (7 - t) := by
  have hlen : ((s.drop (8 * j)).take 8).length = 8 := by simp; omega
  have hlt : bitsToNat ((s.drop (8 * j)).take 8) < 2 ^ 8 :=
    (bitsToNat_lt _).trans_eq (by rw [hlen])
  rw [bitsToBytes_getD n j s h hj, BitVec.toNat_ofNat, Nat.mod_eq_of_lt hlt, bitsToNat_eq_sum, hlen]
  refine Finset.sum_congr rfl fun t ht => ?_
  have hget : (s.drop (8 * j)).getD t false = s.getD (8 * j + t) false := by simp
  rw [getD_take_of_lt _ (Finset.mem_range.1 ht), hget]

/-! ### The keystream -/

/-- R129: the keystream depends on the key only through its bits up to repetition. -/
theorem keystream_congr {k k' : List Byte}
    (h : ∀ i, (bytesToBits k).getD (i % (8 * k.length)) false =
      (bytesToBits k').getD (i % (8 * k'.length)) false) (n : Nat) :
    keystream k n = keystream k' n :=
  List.map_congr_left fun i _ => h i

/-- A list said twice, read with its period, is the list read with its own. -/
theorem getD_append_self_mod {α : Type} (l : List α) (i : Nat) (d : α) :
    (l ++ l).getD (i % (2 * l.length)) d = l.getD (i % l.length) d := by
  have hmod : i % (2 * l.length) % l.length = i % l.length := Nat.mod_mul_left_mod i 2 l.length
  rcases Nat.eq_zero_or_pos l.length with hnil | hpos
  · simp [List.length_eq_zero_iff.1 hnil]
  · have hlt : i % (2 * l.length) < 2 * l.length := Nat.mod_lt _ (by omega)
    rw [← hmod]
    generalize i % (2 * l.length) = x at hlt
    by_cases h : x < l.length
    · rw [List.getD_append _ _ _ _ h, Nat.mod_eq_of_lt h]
    · rw [List.getD_append_right _ _ _ _ (by omega), Nat.mod_eq_sub_mod (by omega),
        Nat.mod_eq_of_lt (by omega)]

/-- R129: a key and the key said twice give the same keystream. -/
theorem keystream_append_self (k : List Byte) (n : Nat) : keystream k n = keystream (k ++ k) n := by
  refine keystream_congr (fun i => ?_) n
  have hperiod : 8 * (k ++ k).length = 2 * (8 * k.length) := by simp; omega
  rw [hperiod, bytesToBits_append, ← bytesToBits_length, getD_append_self_mod]

/-- R129: every bit of zero bytes is 0. -/
theorem bytesToBits_replicate_zero_getD (m i : Nat) :
    (bytesToBits (List.replicate m 0#8)).getD i false = false := by
  have hbyte : (List.replicate m 0#8).getD (i / 8) 0#8 = 0#8 := by simp
  rw [bytesToBits_getD, hbyte, BitVec.getLsbD_zero]

/-- R129: zero bytes give an all-zero keystream. -/
theorem keystream_replicate_zero (m n : Nat) :
    keystream (List.replicate m 0#8) n = List.replicate n false := by
  apply bits_ext (by simp)
  intro i hi
  rw [keystream_length] at hi
  rw [keystream_getD _ _ _ hi, bytesToBits_replicate_zero_getD, List.getD_replicate _ hi]

/-- R127: a shorter keystream is the start of a longer one. -/
theorem keystream_eq_take (key : List Byte) {m n : Nat} (h : m ≤ n) :
    keystream key m = (keystream key n).take m := by
  rw [keystream, keystream, ← List.map_take, List.take_range, Nat.min_eq_left h]

/-! ### The mixer -/

/-- With a key, `keyBit` is the keystream's element. -/
theorem keyBit_eq_keystream {key : List Byte} (hk : 1 ≤ key.length) {n i : Nat} (h : i < n) :
    keyBit key i = (keystream key n).getD i false := by
  rw [keystream_getD key n i h, keyBit]
  simp [show key.length ≠ 0 by omega]

/-- R126: the two XORs with one key bit cancel. -/
theorem xorKey_xorKey (key : List Byte) (s : BitString) : xorKey key (xorKey key s) = s := by
  apply bits_ext (by simp)
  intro i hi
  have hs : i < s.length := by simpa using hi
  rw [xorKey_getD _ _ _ (by simpa using hs), xorKey_getD _ _ _ hs, Bool.xor_assoc, Bool.xor_self,
    Bool.xor_false]

/-- R127: the mixer works on an initial segment as it does on the whole. -/
theorem take_xorKey_append (key : List Byte) (s t : BitString) :
    (xorKey key (s ++ t)).take s.length = xorKey key s := by
  apply bits_ext (by simp)
  intro i hi
  have hs : i < s.length := by simp at hi; omega
  rw [getD_take_of_lt _ hs, xorKey_getD _ _ _ (by simp; omega), xorKey_getD _ _ _ hs, List.getD_append _ _ _ _ hs]

/-- R128: the key period is a whole number of bytes, so the mixer XORs byte by byte. -/
theorem xorKey_bytesToBits {key : List Byte} (hk : 1 ≤ key.length) (B : List Byte) :
    xorKey key (bytesToBits B) = bytesToBits
      ((List.range B.length).map fun j => B.getD j 0#8 ^^^ key.getD (j % key.length) 0#8) := by
  apply bits_ext (by simp)
  intro i hi
  have hi8 : i < (bytesToBits B).length := by simpa using hi
  have hbyte : i / 8 < B.length := by rw [bytesToBits_length] at hi8; omega
  have hget : ((List.range B.length).map fun j =>
      B.getD j 0#8 ^^^ key.getD (j % key.length) 0#8).getD (i / 8) 0#8 =
      B.getD (i / 8) 0#8 ^^^ key.getD (i / 8 % key.length) 0#8 := by simp [hbyte]
  rw [xorKey_getD _ _ _ hi8, keyBit_byte _ _ (by omega), bytesToBits_getD, bytesToBits_getD, hget,
    BitVec.getLsbD_xor]

/-- R129: zero bytes are no key. -/
theorem xorKey_replicate_zero (m : Nat) (s : BitString) : xorKey (List.replicate m 0#8) s = s := by
  apply bits_ext (by simp)
  intro i hi
  rw [xorKey_length] at hi
  rw [xorKey_getD _ _ _ hi, keyBit, bytesToBits_replicate_zero_getD, Bool.and_false, Bool.xor_false]

/-! ### The channel walk -/

/-- R130: the walk goes up. -/
theorem chan_strictMono : StrictMono chan := fun i j h => by unfold chan; omega

/-- R130: the walk of `p` pixels meets every byte below `4*p` that is no alpha byte; the element that
byte `a` carries is `3*(a div 4) + a mod 4`. -/
theorem exists_chan_eq_iff (p a : Nat) : (∃ i < 3 * p, chan i = a) ↔ a < 4 * p ∧ a % 4 ≠ 3 := by
  constructor
  · rintro ⟨i, hi, rfl⟩
    exact ⟨chan_lt hi, (chan_mod i).ne⟩
  · rintro ⟨ha, halpha⟩
    refine ⟨3 * (a / 4) + a % 4, by omega, ?_⟩
    unfold chan
    omega

end Sys2Proof.Machine

namespace Sys2Proof.Proofs

open Sys2Proof.Machine

/-- Settles O42: the elements are `bytesToBits_getD` and the sum of `bitsToBytes_getD_toNat`, and the
inverses go byte by byte. -/
theorem bitConversionsAreInverse : Obligations.BitConversionsAreInverse := by
  unfold Obligations.BitConversionsAreInverse
  refine ⟨fun B => ⟨bytesToBits_length B, fun j _ t ht => ?_⟩,
    fun n s h => ⟨bitsToBytes_length n s h, fun j hj => bitsToBytes_getD_toNat h hj⟩,
    bitsToBytes_bytesToBits, bytesToBits_bitsToBytes⟩
  rw [bytesToBits_getD, show (8 * j + t) / 8 = j by omega, show (8 * j + t) % 8 = t by omega]

/-- Settles O43: the keystream's element is `keystream_getD`, and with a key the bit that the mixer XORs
is that element. -/
theorem mixerXorsRepeatedKeyBits : Obligations.MixerXorsRepeatedKeyBits := by
  unfold Obligations.MixerXorsRepeatedKeyBits
  refine ⟨fun key n i _ hi => ⟨keystream_length key n, keystream_getD key n i hi⟩, fun s => rfl,
    fun key s => ⟨xorKey_length key s, fun hk i hi => ?_⟩⟩
  rw [xorKey_getD key s i hi, keyBit_eq_keystream hk hi]

/-- Settles O44: `xorKey_xorKey` is the statement. -/
theorem mixerIsInvolution : Obligations.MixerIsInvolution := by
  unfold Obligations.MixerIsInvolution
  exact xorKey_xorKey

/-- Settles O45: element `i` of the keystream depends on no length, so neither does the mixer's. -/
theorem mixerActsOnInitialSegments : Obligations.MixerActsOnInitialSegments := by
  unfold Obligations.MixerActsOnInitialSegments
  exact ⟨fun key m n _ h => keystream_eq_take key h, take_xorKey_append⟩

/-- Settles O46: by `xorKey_bytesToBits`, which goes bit by bit. -/
theorem mixerByteForm : Obligations.MixerByteForm := by
  unfold Obligations.MixerByteForm
  exact fun key B hk => xorKey_bytesToBits hk B

/-- Settles O47: the keystream reads a key only through its repeated bits; the key `6B 6B` is `6B` said
twice, and the bits of zero bytes are 0. -/
theorem repeatedKeysCollide : Obligations.RepeatedKeysCollide := by
  unfold Obligations.RepeatedKeysCollide
  exact ⟨fun k1 k2 _ _ h n => keystream_congr h n, keystream_append_self [0x6B#8],
    fun m n _ => keystream_replicate_zero m n, xorKey_replicate_zero⟩

/-- Settles O48: the walk goes up, skips the alpha bytes and meets every other byte. -/
theorem channelWalkCoversUsableBytes : Obligations.ChannelWalkCoversUsableBytes := by
  unfold Obligations.ChannelWalkCoversUsableBytes
  exact ⟨fun i => rfl, fun i j h => chan_strictMono h, fun i => (chan_mod i).ne, exists_chan_eq_iff⟩

end Sys2Proof.Proofs
end

section
/-! EMBED (41_codec R150 to R155): an equation for each outcome, what its write walk leaves in PIXMEM, the
keyed payload as bytes; and the statements O17 to O20. -/

namespace Sys2Proof.Machine

/-! ### The checks -/

theorem embedOutOfRange_eq_true_iff (s : State) : embedOutOfRange s = true ↔
    s.P > s.params.pixMax ∨ s.L > s.params.msgMax ∨ s.K > s.params.keyMax := by
  simp [embedOutOfRange, or_assoc]

theorem embedOutOfRange_eq_false_iff (s : State) : embedOutOfRange s = false ↔
    s.P ≤ s.params.pixMax ∧ s.L ≤ s.params.msgMax ∧ s.K ≤ s.params.keyMax := by
  simp [embedOutOfRange, and_assoc]

theorem exec_embed_of_outOfRange {s : State} (h : embedOutOfRange s = true) :
    exec .embed s = .next (complete .badParam s) :=
  if_pos h

theorem exec_embed_of_tooLong {s : State} (hr : embedOutOfRange s = false)
    (h : 32 + 8 * s.L > 3 * s.P) : exec .embed s = .next (complete .capacityExceeded s) :=
  (if_neg (by simp [hr])).trans (if_pos h)

theorem exec_embed_of_fits {s : State} (hr : embedOutOfRange s = false)
    (h : 32 + 8 * s.L ≤ 3 * s.P) :
    exec .embed s = .next (complete .ok (embedWalk 0 (embedEncoded s) s)) :=
  (if_neg (by simp [hr])).trans (if_neg (Nat.not_lt.2 h))

/-! ### What the write walk leaves in PIXMEM -/

/-- R154: bit 0 of the channel byte of element `i` is that element. -/
theorem embedWalk_channel_lsb {i : Nat} {bs : BitString} (hi : i < bs.length) (s : State) :
    (memRead .pixmem (chan i) (embedWalk 0 bs s)).getLsbD 0 = bs.getD i false := by
  have h := embedWalk_channel 0 i bs s hi
  rw [Nat.zero_add] at h
  rw [h, replaceLsb_zero]

/-- R154: bits [7:1] of a channel byte keep their values. -/
theorem embedWalk_channel_other {i b : Nat} {bs : BitString} (hi : i < bs.length) (hb : 1 ≤ b)
    (s : State) : (memRead .pixmem (chan i) (embedWalk 0 bs s)).getLsbD b =
      (memRead .pixmem (chan i) s).getLsbD b := by
  have h := embedWalk_channel 0 i bs s hi
  rw [Nat.zero_add] at h
  rw [h, replaceLsb_other _ _ _ hb]

/-- R154: the walk stores to the channels of its elements alone. -/
theorem embedWalk_notChannel {a : Nat} {bs : BitString} (h : ∀ i < bs.length, a ≠ chan i) (s : State) :
    memRead .pixmem a (embedWalk 0 bs s) = memRead .pixmem a s :=
  embedWalk_untouched 0 a bs s fun k hk => by rw [Nat.zero_add]; exact h k hk

/-- R155: pixels past the last element keep all their bytes. -/
theorem embedWalk_laterPixel {p c : Nat} {bs : BitString} (h : bs.length ≤ 3 * p) (s : State) :
    memRead .pixmem (4 * p + c) (embedWalk 0 bs s) = memRead .pixmem (4 * p + c) s := by
  refine embedWalk_notChannel (fun i hi heq => ?_) s
  have hlt : chan i < 4 * p := chan_lt (by omega)
  omega

/-- R155 and R177: the walk stores to no alpha byte. -/
theorem embedWalk_alpha (p : Nat) (bs : BitString) (s : State) :
    memRead .pixmem (4 * p + 3) (embedWalk 0 bs s) = memRead .pixmem (4 * p + 3) s := by
  refine embedWalk_notChannel (fun i _ heq => ?_) s
  have hmod := chan_mod i
  omega

/-! ### The keyed payload as bytes -/

/-- The four bytes of the length prefix, highest first (R153). -/
def lengthBytes (v : Word) : List Byte :=
  [v.extractLsb' 24 8, v.extractLsb' 16 8, v.extractLsb' 8 8, v.extractLsb' 0 8]

theorem lengthBytes_getD (v : Word) {j : Nat} (hj : j < 4) :
    (lengthBytes v).getD j 0#8 = v.extractLsb' (8 * (3 - j)) 8 := by
  interval_cases j <;> rfl

/-- R95: the length prefix is the bits of its four bytes. -/
theorem be32bits_eq_bytesToBits (v : Word) : be32bits v = bytesToBits (lengthBytes v) := by
  apply bits_ext (by simp [lengthBytes])
  intro i hi
  rw [be32bits_length] at hi
  rw [be32bits_getD v i hi, bytesToBits_getD, lengthBytes_getD v (by omega),
    BitVec.getLsbD_extractLsb', show 8 * (3 - i / 8) + (7 - i % 8) = 31 - i by omega]
  simp [show 7 - i % 8 < 8 by omega]

theorem embedPayload_eq_bytesToBits (s : State) :
    embedPayload s = bytesToBits (lengthBytes s.msglen ++ message s) := by
  rw [embedPayload, payloadBits, be32bits_eq_bytesToBits, bytesToBits_append]

/-- Byte `j` of EMBED's keyed payload for a key of at least one byte (R153). -/
def embedEncodedByte (s : State) (j : Nat) : Byte :=
  (lengthBytes s.msglen ++ message s).getD j 0#8 ^^^ memRead .keymem (j % s.K) s

/-- R153: byte `j + 4` is message byte `j`, keyed with key byte `(j + 4) mod K`. -/
theorem embedEncodedByte_message (s : State) {j : Nat} (hj : j < s.L) :
    embedEncodedByte s (j + 4) = memRead .msgmem j s ^^^ memRead .keymem ((j + 4) % s.K) s := by
  have hmsg : (lengthBytes s.msglen ++ message s).getD (j + 4) 0#8 = (message s).getD j 0#8 :=
    List.getD_append_right _ _ _ _ (Nat.le_add_left 4 j)
  rw [embedEncodedByte, hmsg, message_getD s j hj]

/-- R153 byte by byte: the mixer XORs whole bytes. -/
theorem embedEncoded_eq_bytesToBits {s : State} (hk : 1 ≤ s.K) :
    embedEncoded s = bytesToBits ((List.range (4 + s.L)).map (embedEncodedByte s)) := by
  have hlen : (lengthBytes s.msglen ++ message s).length = 4 + s.L := by simp [lengthBytes]; omega
  rw [embedEncoded, embedPayload_eq_bytesToBits, xorKey_bytesToBits (by simpa using hk), hlen,
    keyBytes_length]
  refine congrArg bytesToBits (List.map_congr_left fun j _ => ?_)
  rw [embedEncodedByte, keyBytes_getD s _ (Nat.mod_lt j hk)]

/-! ### Slices of bit strings -/

theorem slice_getD (s : BitString) {a b k : Nat} (hk : k < b - a) :
    (slice s a b).getD k false = s.getD (a + k) false := by
  rw [slice, getD_take_of_lt _ hk]
  simp

theorem slice_length {s : BitString} {a b : Nat} (h : b ≤ s.length) :
    (slice s a b).length = b - a := by
  rw [slice, List.length_take, List.length_drop]
  omega

/-- R120: bits `8*j .. 8*j+7` are those of byte `j`. -/
theorem slice_bytesToBits {B : List Byte} {j : Nat} (hj : j < B.length) :
    slice (bytesToBits B) (8 * j) (8 * j + 8) = byteBits (B.getD j 0#8) := by
  have hlen : (slice (bytesToBits B) (8 * j) (8 * j + 8)).length = 8 :=
    (slice_length (by rw [bytesToBits_length]; omega)).trans (by omega)
  apply bits_ext (by rw [hlen, byteBits_length])
  intro k hk
  rw [hlen] at hk
  rw [slice_getD _ (by omega), bytesToBits_getD, byteBits_getD, show (8 * j + k) / 8 = j by omega,
    show (8 * j + k) % 8 = k by omega, decide_eq_true hk, Bool.true_and]

end Sys2Proof.Machine

namespace Sys2Proof.Proofs

open Sys2Proof.Machine

/-- Settles O17: the range check is EMBED's first test. -/
theorem embedRangeCheck : Obligations.EmbedRangeCheck := by
  unfold Obligations.EmbedRangeCheck
  intro s h
  exact ⟨_, exec_embed_of_outOfRange ((embedOutOfRange_eq_true_iff s).2 h),
    onlyStatusChanged_complete .badParam s⟩

/-- Settles O18: at the boundary the walk runs, and it changes bytes alone; one bit more and nothing
does. -/
theorem embedCapacityBoundary : Obligations.EmbedCapacityBoundary := by
  unfold Obligations.EmbedCapacityBoundary
  intro s hP hL hK
  have hr := (embedOutOfRange_eq_false_iff s).2 ⟨hP, hL, hK⟩
  exact ⟨fun hfit => ⟨_, exec_embed_of_fits hr hfit.le, completedWith_complete (memOnly_embedWalk _ _ s)⟩,
    fun hlong => ⟨_, exec_embed_of_tooLong hr hlong, onlyStatusChanged_complete .capacityExceeded s⟩⟩

/-- Settles O19: the walk gives each element's channel its bit and keeps bits [7:1]; alpha bytes, later
pixels and every other byte are no channel of an element, and the walk changes bytes of PIXMEM alone. -/
theorem embedWritesKeyedPayload : Obligations.EmbedWritesKeyedPayload := by
  unfold Obligations.EmbedWritesKeyedPayload
  intro s hP hL hK hfit
  have hr := (embedOutOfRange_eq_false_iff s).2 ⟨hP, hL, hK⟩
  have hmem := memOnly_embedWalk 0 (embedEncoded s) s
  have hlen := embedEncoded_length s
  refine ⟨_, exec_embed_of_fits hr hfit, completedWith_complete hmem, sameOperandRegs_complete hmem,
    (memOnly_hdr hmem :), sameSurroundings_complete hmem, fun i hi => ?_, fun a ha => ?_, fun p c hp => ?_,
    fun p => ?_, fun a => ?_, fun a => ?_⟩
  · rw [← hlen] at hi
    simp only [memRead_complete]
    exact ⟨embedWalk_channel_lsb hi s, fun b hb => embedWalk_channel_other hi hb s⟩
  · rw [memRead_complete, embedWalk_notChannel (hlen ▸ ha)]
  · rw [memRead_complete, embedWalk_laterPixel (hlen ▸ hp)]
  · rw [memRead_complete, embedWalk_alpha]
  · rw [memRead_complete, embedWalk_otherMem (by decide)]
  · rw [memRead_complete, embedWalk_otherMem (by decide)]

/-- Settles O20: the first form is the definition; with a key the payload's bytes are XORed byte by byte,
the message's standing four places on. -/
theorem embedKeyedPayloadBytes : Obligations.EmbedKeyedPayloadBytes := by
  unfold Obligations.EmbedKeyedPayloadBytes
  refine fun s => ⟨rfl, fun hk => ⟨embedEncoded_eq_bytesToBits hk, fun j hj => ?_⟩⟩
  rw [embedEncoded_eq_bytesToBits hk, show 32 + 8 * j = 8 * (j + 4) by omega,
    show 40 + 8 * j = 8 * (j + 4) + 8 by omega, slice_bytesToBits (by simp; omega),
    ← embedEncodedByte_message s hj]
  simp [show j + 4 < 4 + s.L by omega]

end Sys2Proof.Proofs
end

section
/-! EXTRACT (41_codec R160 to R166): an equation for each outcome, what an accepted message leaves, and the
statements O25, O26, O28 and O29. -/

namespace Sys2Proof.Machine

/-! ### The checks -/

theorem extractOutOfRange_eq_true_iff (s : State) : extractOutOfRange s = true ↔
    s.P > s.params.pixMax ∨ s.K > s.params.keyMax := by
  simp [extractOutOfRange]

theorem extractOutOfRange_eq_false_iff (s : State) : extractOutOfRange s = false ↔
    s.P ≤ s.params.pixMax ∧ s.K ≤ s.params.keyMax := by
  simp [extractOutOfRange]

/-- The state EXTRACT leaves where it accepts the message that the buffer declares (R164, R166). -/
def extractAccepted (s : State) : State :=
  complete .ok (extractStore (declaredLength s) (writeHdr (declaredLength s) s))

theorem exec_extract_of_outOfRange {s : State} (h : extractOutOfRange s = true) :
    exec .extract s = .next (complete .badParam s) :=
  if_pos h

theorem exec_extract_of_tooSmall {s : State} (hr : extractOutOfRange s = false) (h : 3 * s.P < 32) :
    exec .extract s = .next (complete .noMsgTooSmall s) :=
  (if_neg (by simp [hr])).trans (if_pos h)

theorem exec_extract_of_badLength {s : State} (hr : extractOutOfRange s = false) (h32 : 32 ≤ 3 * s.P)
    (hd : declaredLength s = 0 ∨ 32 + 8 * declaredLength s > 3 * s.P) :
    exec .extract s = .next (complete .noMsgBadLength (writeHdr (declaredLength s) s)) :=
  (if_neg (by simp [hr])).trans ((if_neg (Nat.not_lt.2 h32)).trans (if_pos hd))

/-- R166: under R8 a declared length of 1 or more that fits in the buffer is accepted. -/
theorem exec_extract_of_fits {s : State} (hw : s.params.wf = true) (hr : extractOutOfRange s = false)
    (h1 : 1 ≤ declaredLength s) (hd : 32 + 8 * declaredLength s ≤ 3 * s.P) :
    exec .extract s = .next (extractAccepted s) := by
  have hmax := declared_fits hw hr hd
  rcases exec_extract_cases s with ⟨hout, -⟩ | ⟨-, hsmall, -⟩ | ⟨-, -, hbad, -⟩ | ⟨-, -, -, hlong, -⟩ |
    ⟨-, -, -, -, h⟩
  · simp [hr] at hout
  · omega
  · omega
  · omega
  · exact h

/-- The result OK is given for an accepted message alone. -/
theorem exec_extract_ok {s u : State} (h : exec .extract s = .next u) (hok : u.result = .ok) :
    1 ≤ declaredLength s ∧ 32 + 8 * declaredLength s ≤ 3 * s.P ∧ u = extractAccepted s := by
  rcases exec_extract_cases s with ⟨-, he⟩ | ⟨-, -, he⟩ | ⟨-, -, -, he⟩ | ⟨-, -, -, -, he⟩ |
    ⟨-, h1, hd, -, he⟩ <;> rw [he] at h <;> cases h
  · cases hok
  · cases hok
  · cases hok
  · exact ⟨h1, hd, rfl⟩

/-! ### What an accepted message leaves -/

/-- R98 and R164: the declared length as a sum over the first 32 decoded bits. -/
theorem declaredLength_eq_sum {s : State} (h : 32 ≤ 3 * s.P) : declaredLength s =
    ∑ k ∈ Finset.range 32, ((decodedBits s).getD k false).toNat * 2 ^ (31 - k) :=
  declaredByteLength_eq_sum (by rwa [decodedBits_length])

/-- R164: HDR holds the declared length without loss. -/
theorem ofNat_declaredLength_toNat (s : State) :
    (BitVec.ofNat 32 (declaredLength s)).toNat = declaredLength s :=
  (BitVec.toNat_ofNat ..).trans (Nat.mod_eq_of_lt (declaredLength_lt s))

/-- EXTRACT's output does not depend on HDR. -/
theorem extractOutput_writeHdr (d e : Nat) (s : State) :
    extractOutput d (writeHdr e s) = extractOutput d s :=
  extractOutput_congr (s := s) (t := writeHdr e s)
    ⟨rfl, rfl, fun i _ => by rw [memRead_writeHdr], fun a _ => memRead_writeHdr ..⟩ d

@[simp] theorem extractAccepted_msglen (s : State) :
    (extractAccepted s).msglen = BitVec.ofNat 32 (declaredLength s) := rfl
@[simp] theorem extractAccepted_hdr (s : State) :
    (extractAccepted s).hdr = BitVec.ofNat 32 (declaredLength s) := by simp [extractAccepted]

/-- R166: the bytes after an accepted message. -/
theorem memRead_extractAccepted {s : State} (hd : 32 + 8 * declaredLength s ≤ 3 * s.P)
    (M : MemName) (a : Nat) : memRead M a (extractAccepted s) =
      if M = .msgmem ∧ a < declaredLength s then (extractOutput (declaredLength s) s).getD a 0#8
      else memRead M a s := by
  rw [extractAccepted, memRead_complete, memRead_extractStore, extractOutput_writeHdr,
    extractOutput_length _ s hd, memRead_writeHdr]

theorem memRead_extractAccepted_otherMem {M : MemName} (hM : M ≠ .msgmem) {s : State}
    (hd : 32 + 8 * declaredLength s ≤ 3 * s.P) (a : Nat) :
    memRead M a (extractAccepted s) = memRead M a s := by
  rw [memRead_extractAccepted hd, if_neg fun h => hM h.1]

/-- R166: MSGMEM[0..D) is the output. -/
theorem memReadList_extractAccepted {s : State} (hd : 32 + 8 * declaredLength s ≤ 3 * s.P) :
    memReadList .msgmem 0 (declaredLength s) (extractAccepted s) =
      extractOutput (declaredLength s) s := by
  have hlen := extractOutput_length _ s hd
  apply List.ext_getElem (by rw [memReadList_length, hlen])
  intro j hj hj'
  rw [hlen] at hj'
  rw [memReadList_getElem, Nat.zero_add, memRead_extractAccepted hd, if_pos ⟨rfl, hj'⟩,
    List.getD_eq_getElem]

end Sys2Proof.Machine

namespace Sys2Proof.Proofs

open Sys2Proof.Machine

/-- Settles O25: the range check is EXTRACT's first test, and MSGLEN is not in it. -/
theorem extractRangeCheck : Obligations.ExtractRangeCheck := by
  unfold Obligations.ExtractRangeCheck
  intro s h
  exact ⟨_, exec_extract_of_outOfRange ((extractOutOfRange_eq_true_iff s).2 h),
    onlyStatusChanged_complete .badParam s⟩

/-- Settles O26: the test for 32 bits comes before anything is read. -/
theorem extractTooSmallBuffer : Obligations.ExtractTooSmallBuffer := by
  unfold Obligations.ExtractTooSmallBuffer
  refine ⟨fun p => by omega, fun s hP hK hsmall => ?_⟩
  have hr := (extractOutOfRange_eq_false_iff s).2 ⟨hP, hK⟩
  exact ⟨_, exec_extract_of_tooSmall hr hsmall, onlyStatusChanged_complete .noMsgTooSmall s⟩

/-- Settles O28: the sum is the declared length, which HDR holds in full, and HDR is all that EXTRACT
writes before it completes. -/
theorem extractRejectsInconsistentLength : Obligations.ExtractRejectsInconsistentLength := by
  unfold Obligations.ExtractRejectsInconsistentLength
  intro s d hP hK h32 hsum hd
  have hr := (extractOutOfRange_eq_false_iff s).2 ⟨hP, hK⟩
  obtain rfl : d = declaredLength s := hsum.trans (declaredLength_eq_sum h32).symm
  exact ⟨_, exec_extract_of_badLength hr h32 hd, ⟨rfl, rfl, rfl, rfl, rfl, rfl⟩, ⟨rfl, rfl, rfl⟩, rfl,
    ofNat_declaredLength_toNat s, ⟨rfl, rfl, rfl, rfl, rfl⟩, fun M a => by simp⟩

/-- Settles O29: an accepted length fits in MSGMEM, its output stands in MSGMEM[0..D), and MSGLEN and HDR
hold it in full. -/
theorem extractRecoversDeclaredBytes : Obligations.ExtractRecoversDeclaredBytes := by
  unfold Obligations.ExtractRecoversDeclaredBytes
  intro s d hw hP hK hsum h1 hd
  have hr := (extractOutOfRange_eq_false_iff s).2 ⟨hP, hK⟩
  obtain rfl : d = declaredLength s := hsum.trans (declaredLength_eq_sum (by omega)).symm
  have hexec := exec_extract_of_fits hw hr h1 hd
  obtain ⟨hcompleted, hsurroundings, hpixcount, hkeylen, hkeymem⟩ := exec_frame hexec
  refine ⟨declared_fits hw hr hd, _, hexec, hcompleted, ?_, ?_, hpixcount, hkeylen, hsurroundings,
    memReadList_extractAccepted hd, fun a ha => ?_,
    memRead_extractAccepted_otherMem (by decide) hd, hkeymem⟩
  · rw [extractAccepted_msglen, ofNat_declaredLength_toNat]
  · rw [extractAccepted_hdr, ofNat_declaredLength_toNat]
  · rw [memRead_extractAccepted hd, if_neg fun h => absurd h.2 (Nat.not_lt.2 ha)]

end Sys2Proof.Proofs
end

section
/-! Properties of the codec (41_codec R175 to R179): a bit string starts with a payload exactly when its
parse gives the payload's length and message; what EXTRACT decodes from the pixels EMBED left; the alpha
bytes; and the statements O33 to O36. -/

namespace Sys2Proof.Machine

/-! ### Payload and parse -/

/-- R98: 32 bits are the length prefix of the number they stand for, and of no other. -/
theorem eq_be32bits_iff {p : BitString} (hp : p.length = 32) (l : Word) :
    p = be32bits l ↔ bitsToNat p = l.toNat := by
  refine ⟨fun h => h ▸ bitsToNat_be32bits l, fun h => bits_ext (by rw [hp, be32bits_length]) fun i hi => ?_⟩
  have hi32 : i < 32 := hp ▸ hi
  have hbit := congrArg (fun n => n.testBit (31 - i)) h
  simp only [testBit_bitsToNat, hp, BitVec.testBit_toNat] at hbit
  rw [be32bits_getD l i hi32, ← hbit, show 32 - 1 - (31 - i) = i by omega,
    decide_eq_true (show 31 - i < 32 by omega), Bool.true_and]

/-- R121 and R122: whole bytes of bits are the bits of the bytes they convert to, and of no others. -/
theorem eq_bytesToBits_iff {p : BitString} {m : List Byte} (hp : p.length = 8 * m.length) :
    p = bytesToBits m ↔ bitsToBytes p = m := by
  constructor
  · rintro rfl
    exact bitsToBytes_bytesToBits m
  · rintro rfl
    exact (bytesToBits_bitsToBytes _ p hp).symm

/-- R93, R98: a bit string starts with the payload of a message exactly when the parse of R164 and R166
gives the message's length and the message. -/
theorem take_eq_payloadBits_iff {b : BitString} {l : Word} {m : List Byte} (hl : m.length = l.toNat)
    (hb : 32 + 8 * l.toNat ≤ b.length) : b.take (32 + 8 * l.toNat) = payloadBits l m ↔
      declaredByteLength b = l.toNat ∧ bitsToBytes (slice b 32 (32 + 8 * l.toNat)) = m := by
  have hprefix : (slice b 0 32).length = 32 := slice_length (by omega)
  have hbody : (slice b 32 (32 + 8 * l.toNat)).length = 8 * m.length :=
    (slice_length hb).trans (by omega)
  have hsplit : b.take (32 + 8 * l.toNat) = slice b 0 32 ++ slice b 32 (32 + 8 * l.toNat) := by
    simp [slice, List.take_add]
  rw [hsplit, payloadBits,
    List.append_eq_append_iff_of_size_eq_left (hprefix.trans (be32bits_length l).symm),
    eq_be32bits_iff hprefix, eq_bytesToBits_iff hbody, declaredByteLength]

/-! ### The mixer with two keys -/

/-- R127: the mixer of a prefix is the prefix of the mixer. -/
theorem take_xorKey (key : List Byte) {s : BitString} {n : Nat} (hn : n ≤ s.length) :
    (xorKey key s).take n = xorKey key (s.take n) := by
  have h := take_xorKey_append key (s.take n) (s.drop n)
  rwa [List.take_append_drop, List.length_take, Nat.min_eq_left hn] at h

/-- The keystream of R179, all-zero without a key, is the one that the mixer XORs. -/
theorem keystreamBit_eq_keyBit (key : List Byte) (i : Nat) : keystreamBit key i = keyBit key i := by
  unfold keystreamBit
  split
  case isTrue hnil => simp [keyBit, hnil]
  case isFalse hkey => exact (keyBit_eq_keystream (by omega) (Nat.lt_succ_self i)).symm

/-- R179: a second key undoes the first exactly where their keystreams agree. -/
theorem xorKey_xorKey_eq_iff (k k' : List Byte) (s : BitString) :
    xorKey k' (xorKey k s) = s ↔ ∀ i < s.length, keystreamBit k i = keystreamBit k' i := by
  have hget : ∀ i < s.length,
      (xorKey k' (xorKey k s)).getD i false = (s.getD i false ^^ keyBit k i ^^ keyBit k' i) := by
    intro i hi
    rw [xorKey_getD _ _ _ (by simpa using hi), xorKey_getD _ _ _ hi]
  have hcancel : ∀ a b c : Bool, (a ^^ b ^^ c) = a ↔ b = c := by decide
  simp only [keystreamBit_eq_keyBit]
  constructor
  · intro h i hi
    rw [← hcancel, ← hget i hi, h]
  · intro h
    refine bits_ext (by simp) fun i hi => ?_
    have hs : i < s.length := by simpa using hi
    rw [hget i hs, (hcancel ..).2 (h i hs)]

/-! ### EXTRACT gives a message back -/

theorem memReadList_eq_message_iff (s u : State) : memReadList .msgmem 0 s.L u = message s ↔
    ∀ j < s.L, memRead .msgmem j u = memRead .msgmem j s := by
  simp [message, memReadList]

/-- R164 to R166: EXTRACT gives a message back exactly when the decoded bits start with its payload. -/
theorem exec_extract_recovers_iff {s : State} {l : Word} {m : List Byte} (hw : s.params.wf = true)
    (hr : extractOutOfRange s = false) (hl : 1 ≤ l.toNat) (hfit : 32 + 8 * l.toNat ≤ 3 * s.P)
    (hm : m.length = l.toNat) :
    (∃ u, exec .extract s = .next u ∧ u.result = .ok ∧ u.hdr = l ∧
      memReadList .msgmem 0 l.toNat u = m) ↔
    (decodedBits s).take (32 + 8 * l.toNat) = payloadBits l m := by
  rw [take_eq_payloadBits_iff hm (by rwa [decodedBits_length])]
  change _ ↔ declaredLength s = l.toNat ∧ extractOutput l.toNat s = m
  constructor
  · rintro ⟨u, hexec, hok, hhdr, hmsg⟩
    obtain ⟨-, hd, rfl⟩ := exec_extract_ok hexec hok
    have hlen : declaredLength s = l.toNat := by
      rw [← hhdr, extractAccepted_hdr, ofNat_declaredLength_toNat]
    rw [← hlen, memReadList_extractAccepted hd] at hmsg
    exact ⟨hlen, hlen ▸ hmsg⟩
  · rintro ⟨hlen, hmsg⟩
    rw [← hlen] at hl hfit hmsg
    refine ⟨_, exec_extract_of_fits hw hr hl hfit, rfl, ?_, ?_⟩
    · rw [extractAccepted_hdr, hlen, BitVec.ofNat_toNat, BitVec.setWidth_eq]
    · rw [← hlen, memReadList_extractAccepted hfit, hmsg]

/-! ### What EXTRACT decodes from the pixels EMBED left -/

/-- `t` holds the pixels that EMBED, run in `s`, left: the same block and PIXCOUNT, and a scan that starts
with the keyed payload. -/
structure holdsEmbedded (s t : State) : Prop where
  params : t.params = s.params
  pixcount : t.pixcount = s.pixcount
  scan : (extractedBits t).take (32 + 8 * s.L) = embedEncoded s

theorem holdsEmbedded_P {s t : State} (h : holdsEmbedded s t) : t.P = s.P :=
  congrArg BitVec.toNat h.pixcount

/-- R154 and R162: every later state with EMBED's PIXCOUNT and usable bytes holds its pixels. -/
theorem holdsEmbedded_of_embed {s t s' : State} (hr : embedOutOfRange s = false)
    (hfit : 32 + 8 * s.L ≤ 3 * s.P) (hexec : exec .embed s = .next t) (hparams : s'.params = t.params)
    (hpixcount : s'.pixcount = t.pixcount)
    (hbytes : ∀ a < 4 * s.P, a % 4 ≠ 3 → memRead .pixmem a s' = memRead .pixmem a t) :
    holdsEmbedded s s' := by
  obtain ⟨-, ⟨htparams, -⟩, htpixcount, -⟩ := exec_frame hexec
  have hpix : s'.pixcount = s.pixcount := hpixcount.trans htpixcount
  have hP : s'.P = s.P := congrArg BitVec.toNat hpix
  refine ⟨hparams.trans htparams, hpix, bits_ext (by simp; omega) fun i hi => ?_⟩
  have hi : i < 32 + 8 * s.L := by rw [List.length_take] at hi; omega
  rw [exec_embed_of_fits hr hfit] at hexec
  cases hexec
  rw [getD_take_of_lt _ hi, extractedBits_getD _ _ (by omega),
    hbytes _ (chan_lt (by omega)) (chan_mod i).ne, memRead_complete,
    embedWalk_channel_lsb (by rwa [embedEncoded_length])]

/-- R153 and R162: what EXTRACT decodes starts with the payload under both keys. -/
theorem take_decodedBits_of_holdsEmbedded {s t : State} (hfit : 32 + 8 * s.L ≤ 3 * s.P)
    (h : holdsEmbedded s t) : (decodedBits t).take (32 + 8 * s.L) =
      xorKey (keyBytes t) (xorKey (keyBytes s) (embedPayload s)) := by
  have hn : 32 + 8 * s.L ≤ (extractedBits t).length := by
    rw [extractedBits_length, holdsEmbedded_P h]
    exact hfit
  rw [decodedBits, take_xorKey _ hn, h.scan, embedEncoded]

/-- R175: with EMBED's key the payload itself comes back. -/
theorem take_decodedBits_of_sameKey {s t : State} (hfit : 32 + 8 * s.L ≤ 3 * s.P)
    (h : holdsEmbedded s t) (hkey : keyBytes t = keyBytes s) :
    (decodedBits t).take (32 + 8 * s.L) = embedPayload s := by
  rw [take_decodedBits_of_holdsEmbedded hfit h, hkey, xorKey_xorKey]

/-- A later state with the key registers and bytes that a command left has the command's key. -/
theorem keyBytes_of_exec {i : Instr} {s t s' : State} (hexec : exec i s = .next t)
    (hkeylen : s'.keylen = t.keylen) (hbytes : ∀ a < s.K, memRead .keymem a s' = memRead .keymem a t) :
    keyBytes s' = keyBytes s := by
  obtain ⟨-, -, -, htkeylen, htkeymem⟩ := exec_frame hexec
  exact keyBytes_congr (hkeylen.trans htkeylen) fun a ha => (hbytes a ha).trans (htkeymem a)

theorem K_eq_of_keyBytes_eq {s t : State} (h : keyBytes t = keyBytes s) : t.K = s.K := by
  rw [← keyBytes_length t, h, keyBytes_length]

/-- EXTRACT's operands are in range in a state that holds EMBED's pixels, if the key is. -/
theorem extractOutOfRange_of_holdsEmbedded {s t : State} (h : holdsEmbedded s t)
    (hP : s.P ≤ s.params.pixMax) (hK : t.K ≤ s.params.keyMax) : extractOutOfRange t = false := by
  rw [extractOutOfRange_eq_false_iff, holdsEmbedded_P h, h.params]
  exact ⟨hP, hK⟩

/-- R175 and R179: with EMBED's pixels, EXTRACT gives the message back exactly when the decoded bits start
with EMBED's payload. -/
theorem exec_extract_recovers_message_iff {s t : State} (hw : s.params.wf = true)
    (hP : s.P ≤ s.params.pixMax) (hK : t.K ≤ s.params.keyMax) (hL : 1 ≤ s.L)
    (hfit : 32 + 8 * s.L ≤ 3 * s.P) (h : holdsEmbedded s t) :
    (∃ u, exec .extract t = .next u ∧ u.result = .ok ∧ u.hdr = s.msglen ∧
      ∀ j < s.L, memRead .msgmem j u = memRead .msgmem j s) ↔
    (decodedBits t).take (32 + 8 * s.L) = embedPayload s := by
  simp only [← memReadList_eq_message_iff]
  exact exec_extract_recovers_iff (h.params ▸ hw) (extractOutOfRange_of_holdsEmbedded h hP hK) hL
    (holdsEmbedded_P h ▸ hfit) (message_length s)

/-! ### The empty message -/

/-- R178: the payload of an empty message is the zero length prefix. -/
theorem embedPayload_of_empty {s : State} (hL : s.L = 0) : embedPayload s = be32bits 0#32 := by
  have hlen : s.msglen = 0#32 := BitVec.eq_of_toNat_eq hL
  have hmsg : message s = [] := List.length_eq_zero_iff.1 ((message_length s).trans hL)
  rw [embedPayload, payloadBits, hlen, hmsg, bytesToBits, List.append_nil]

/-- R178: decoded bits that start with the zero prefix declare the length 0. -/
theorem declaredLength_of_take_zero {s : State} (h : (decodedBits s).take 32 = be32bits 0#32) :
    declaredLength s = 0 :=
  (congrArg bitsToNat h).trans (bitsToNat_be32bits 0#32)

/-! ### Alpha bytes -/

/-- R177: no command stores to an alpha byte; EMBED's walk is the only one that stores to PIXMEM. -/
theorem exec_alpha {i : Instr} {s t : State} (p : Nat) (h : exec i s = .next t) :
    memRead .pixmem (4 * p + 3) t = memRead .pixmem (4 * p + 3) s := by
  rcases exec_next_cases h with ⟨c, rfl, -, -⟩ | ⟨-, -, rfl⟩ | ⟨-, -, -, rfl⟩ | ⟨-, rfl⟩ | ⟨-, hd, -, rfl⟩
  · exact memRead_complete ..
  · rw [memRead_complete, mixLoop_otherMem (by decide)]
  · rw [memRead_complete, embedWalk_alpha]
  · rw [memRead_complete, memRead_writeHdr]
  · exact memRead_extractAccepted_otherMem (by decide) hd _

end Sys2Proof.Machine

namespace Sys2Proof.Proofs

open Sys2Proof.Machine

/-- Settles O33: EMBED's key undoes its own XOR, so the decoded bits start with EMBED's payload, from which
EXTRACT gives the message back. -/
theorem extractRecoversEmbeddedMessage : Obligations.ExtractRecoversEmbeddedMessage := by
  unfold Obligations.ExtractRecoversEmbeddedMessage
  intro s hw hP hK hL hLmax hfit
  have hr := (embedOutOfRange_eq_false_iff s).2 ⟨hP, hLmax, hK⟩
  have hexec := exec_embed_of_fits hr hfit
  refine ⟨_, hexec, rfl, fun s' hparams hpixcount hkeylen hkeymem hpixmem => ?_⟩
  have hheld := holdsEmbedded_of_embed hr hfit hexec hparams hpixcount hpixmem
  have hkey := keyBytes_of_exec hexec hkeylen hkeymem
  have hK' : s'.K ≤ s.params.keyMax := K_eq_of_keyBytes_eq hkey ▸ hK
  obtain ⟨u, hextract, hok, hhdr, hmsg⟩ := (exec_extract_recovers_message_iff hw hP hK' hL hfit hheld).2
    (take_decodedBits_of_sameKey hfit hheld hkey)
  obtain ⟨-, -, rfl⟩ := exec_extract_ok hextract hok
  have hmsglen := (extractAccepted_msglen s').trans ((extractAccepted_hdr s').symm.trans hhdr)
  exact ⟨_, hextract, hok, hmsglen, hhdr, hmsg⟩

/-- Settles O34: the message comes back exactly when the decoded bits start with EMBED's payload, which is
when the second key undoes the first on it. -/
theorem messageComesBackIffKeystreamsAgree : Obligations.MessageComesBackIffKeystreamsAgree := by
  unfold Obligations.MessageComesBackIffKeystreamsAgree
  intro s t s' hw hP hK hL hLmax hfit hexec hparams hpixcount hK' hpixmem
  have hr := (embedOutOfRange_eq_false_iff s).2 ⟨hP, hLmax, hK⟩
  have hheld := holdsEmbedded_of_embed hr hfit hexec hparams hpixcount hpixmem
  rw [exec_extract_recovers_message_iff hw hP hK' hL hfit hheld,
    take_decodedBits_of_holdsEmbedded hfit hheld, xorKey_xorKey_eq_iff, embedPayload_length]

/-- Settles O35: the payload is the zero prefix alone; with EMBED's key it comes back and declares the
length 0. -/
theorem emptyMessageReadsBackAsNoMessage : Obligations.EmptyMessageReadsBackAsNoMessage := by
  unfold Obligations.EmptyMessageReadsBackAsNoMessage
  intro s hP hK hL h11
  have hr := (embedOutOfRange_eq_false_iff s).2 ⟨hP, by omega, hK⟩
  have hfit : 32 + 8 * s.L ≤ 3 * s.P := by omega
  have hexec := exec_embed_of_fits hr hfit
  have hlen : (embedEncoded s).length = 32 := by rw [embedEncoded_length, hL]
  refine ⟨_, hexec, rfl, fun i hi => ?_, fun a ha => ?_,
    fun s' hparams hpixcount hkeylen hkeymem hpixmem => ?_⟩
  · rw [memRead_complete, embedWalk_channel_lsb (hlen.symm ▸ hi), embedEncoded, embedPayload_of_empty hL]
  · rw [memRead_complete, embedWalk_notChannel (hlen.symm ▸ ha)]
  · have hheld := holdsEmbedded_of_embed hr hfit hexec hparams hpixcount hpixmem
    have hkey := keyBytes_of_exec hexec hkeylen hkeymem
    have hK' : s'.K ≤ s.params.keyMax := K_eq_of_keyBytes_eq hkey ▸ hK
    have htake := take_decodedBits_of_sameKey hfit hheld hkey
    rw [hL, embedPayload_of_empty hL] at htake
    have hzero := declaredLength_of_take_zero htake
    refine ⟨_, exec_extract_of_badLength (extractOutOfRange_of_holdsEmbedded hheld hP hK') ?_
      (.inl hzero), rfl, ?_⟩
    · rw [holdsEmbedded_P hheld]
      omega
    · rw [complete_hdr, writeHdr_hdr, hzero]

/-- Settles O36: an IDLE engine and the operation ILLEGAL store nothing, and no command stores to an alpha
byte. -/
theorem alphaBytesAreNeverTouched : Obligations.AlphaBytesAreNeverTouched := by
  unfold Obligations.AlphaBytesAreNeverTouched
  intro s t p h
  rcases engineStep_cases s with ⟨-, he⟩ | ⟨i, -, -, he⟩ | ⟨-, -, he⟩ <;> rw [he] at h
  · cases h
    rfl
  · exact exec_alpha p h
  · cases h
    exact memRead_complete ..

end Sys2Proof.Proofs
end

section
/-! The mixer command, NOP and the operation ILLEGAL (42_mixer_control R190 to R197): an equation for each
outcome of MIX, what its loop leaves in MSGMEM, what a CMD write that finds the engine IDLE comes to; and the
statements O9 and O12 to O15. -/

namespace Sys2Proof.Machine

/-! ### MIX's checks -/

theorem mixOutOfRange_eq_true_iff (s : State) : mixOutOfRange s = true ↔
    s.L > s.params.msgMax ∨ s.K > s.params.keyMax := by
  simp [mixOutOfRange]

theorem mixOutOfRange_eq_false_iff (s : State) : mixOutOfRange s = false ↔
    s.L ≤ s.params.msgMax ∧ s.K ≤ s.params.keyMax := by
  simp [mixOutOfRange]

theorem exec_mix_of_outOfRange {s : State} (h : mixOutOfRange s = true) :
    exec .mix s = .next (complete .badParam s) :=
  if_pos h

theorem exec_mix_of_noKey {s : State} (hr : mixOutOfRange s = false) (hk : s.K = 0) :
    exec .mix s = .next (complete .ok s) :=
  (if_neg (by simp [hr])).trans (if_pos hk)

theorem exec_mix_of_key {s : State} (hr : mixOutOfRange s = false) (hk : 1 ≤ s.K) :
    exec .mix s = .next (complete .ok (mixLoop s.K s.L 0 s)) :=
  (if_neg (by simp [hr])).trans (if_neg (by omega))

/-! ### What MIX's loop leaves in MSGMEM -/

/-- R193: each message byte is XORed with the key byte of its place. -/
theorem mixLoop_messageByte (k : Nat) {n j : Nat} (hj : j < n) (s : State) :
    memRead .msgmem j (mixLoop k n 0 s) = memRead .msgmem j s ^^^ memRead .keymem (j % k) s := by
  rw [mixLoop_msgmem, if_pos (by omega)]

/-- R193: the bytes past the message keep their values. -/
theorem mixLoop_pastMessage (k : Nat) {n j : Nat} (hj : n ≤ j) (s : State) :
    memRead .msgmem j (mixLoop k n 0 s) = memRead .msgmem j s := by
  rw [mixLoop_msgmem, if_neg (by omega)]

/-- R193: the message after the loop is the keystream mixer's output on its bits. -/
theorem memReadList_mixLoop {s : State} (hk : 1 ≤ s.K) :
    memReadList .msgmem 0 s.L (mixLoop s.K s.L 0 s) =
      bitsToBytes (xorKey (keyBytes s) (bytesToBits (message s))) := by
  rw [xorKey_bytesToBits (by simpa using hk), bitsToBytes_bytesToBits, message_length, keyBytes_length]
  refine List.map_congr_left fun j hj => ?_
  have hj : j < s.L := List.mem_range.1 hj
  rw [Nat.zero_add, mixLoop_messageByte s.K hj, message_getD s j hj, keyBytes_getD s _ (Nat.mod_lt j hk)]

/-! ### Acceptance, the operation ILLEGAL and STATUS after a completion -/

/-- R211: a CMD write that finds the engine IDLE is accepted. -/
theorem transact_cmd_of_idle {s : State} (hi : s.engState = .idle) (v : Word) :
    (transact (sw Reg.cmd.offset v) s).2 = accept v s := by
  simp only [transact_sw, writeReg, unlessBusy_of_idle hi]

/-- R197: the engine's step on the operation ILLEGAL. -/
theorem engineStep_of_illegal {s : State} (hb : s.engState = .busy) (ho : s.engOp = .illegal) :
    engineStep s = .next (complete .illegalCmd s) := by
  simp only [engineStep, hb, ho, execIllegal]

/-- R26: STATUS after a completion with HAZERR clear: RESULT is the command's, DONE is 1 and BUSY is 0. -/
theorem statusWord_complete {s : State} (hz : s.hazerr = false) (c : Result) :
    statusWord (complete c s) = 0#26 ++ 0#1 ++ c.code ++ 1#1 ++ 0#1 := by
  rw [statusWord, complete_hazerr, hz]
  rfl

end Sys2Proof.Machine

namespace Sys2Proof.Proofs

open Sys2Proof.Machine

/-- Settles O13: the loop is the mixer on the message's bits, which is byte by byte `mixLoop_messageByte`,
and it changes bytes of MSGMEM alone. -/
theorem mixXorsMessageWithRepeatedKey : Obligations.MixXorsMessageWithRepeatedKey := by
  unfold Obligations.MixXorsMessageWithRepeatedKey
  intro s hL hK hk
  have hr := (mixOutOfRange_eq_false_iff s).2 ⟨hL, hK⟩
  have hmem := memOnly_mixLoop s.K s.L 0 s
  refine ⟨_, exec_mix_of_key hr hk, completedWith_complete hmem, sameOperandRegs_complete hmem,
    (memOnly_hdr hmem :), sameSurroundings_complete hmem, (memReadList_mixLoop hk :), fun j hj => ?_,
    fun j hj => ?_, fun a => ?_, fun a => ?_⟩
  · rw [memRead_complete, mixLoop_messageByte s.K hj]
  · rw [memRead_complete, mixLoop_pastMessage s.K hj]
  · rw [memRead_complete, mixLoop_otherMem (by decide)]
  · rw [memRead_complete, mixLoop_otherMem (by decide)]

/-- Settles O9: the word decodes to ILLEGAL, the IDLE engine accepts it, and the completion with ILLEGAL_CMD
leaves the engine IDLE for the next CMD write. -/
theorem illegalWordCompletesWithIllegalCmd : Obligations.IllegalWordCompletesWithIllegalCmd := by
  unfold Obligations.IllegalWordCompletesWithIllegalCmd
  intro s v hi hv
  have hop : decodeOp v = .illegal := (decodeOp_illegal_iff v).2 hv
  have haccept : accept v s = { s with engOp := .illegal, engState := .busy, done := false } := by
    rw [accept, hop]
  rw [transact_cmd_of_idle hi, haccept]
  refine ⟨rfl, engineStep_of_illegal rfl rfl, fun hz => ?_, fun w => ?_⟩
  · exact statusWord_complete (s := { s with engOp := .illegal }) hz .illegalCmd
  · rw [transact_cmd_of_idle rfl, accept_engOp]

/-- Settles O12: NOP is the completion with OK, which sets STATUS to DONE alone and raises `irq`. -/
theorem nopCompletesWithOkOnly : Obligations.NopCompletesWithOkOnly := by
  unfold Obligations.NopCompletesWithOkOnly
  refine fun s => ⟨exec_nop s, fun hz hie => ⟨statusWord_complete hz .ok, ?_⟩⟩
  exact (irq_of_completedWith (completedWith_complete (c := .ok) (memOnly_refl s))).trans hie

/-- Settles O14: `K = 0` is in range, and MIX then ends before its loop. -/
theorem mixWithoutKeyChangesNothing : Obligations.MixWithoutKeyChangesNothing := by
  unfold Obligations.MixWithoutKeyChangesNothing
  intro s hL hk
  have hr := (mixOutOfRange_eq_false_iff s).2 ⟨hL, by omega⟩
  exact ⟨_, exec_mix_of_noKey hr hk, onlyStatusChanged_complete .ok s⟩

/-- Settles O15: the range check is MIX's first test. -/
theorem mixRangeCheck : Obligations.MixRangeCheck := by
  unfold Obligations.MixRangeCheck
  intro s h
  exact ⟨_, exec_mix_of_outOfRange ((mixOutOfRange_eq_true_iff s).2 h),
    onlyStatusChanged_complete .badParam s⟩

end Sys2Proof.Proofs
end

section
/-! Commands and their results (60_exceptions R211, R214 and R215): what a CMD write does in each engine
state, the words that name no command, the result of each command as the first cause that applies; and the
statements O38 and O8. -/

namespace Sys2Proof

/-! ### The operation of a word -/

/-- R91: the engine takes a command's word as that command. -/
theorem decodeOp_encode (i : Instr) : decodeOp (encode i) = .command i :=
  decodeOp_of_ok (decode_encode i)

/-- R90: RSV is not zero exactly in the words from 4 on. -/
theorem rsv_ne_zero_iff (w : Word) : w.extractLsb' 2 30 ≠ 0#30 ↔ 4 ≤ w.toNat := by
  have hw := w.isLt
  rw [ne_eq, ← BitVec.toNat_inj, BitVec.extractLsb'_toNat, Nat.shiftRight_eq_div_pow,
    BitVec.toNat_ofNat]
  omega

/-- R211: the words that stand for no command are those from 4 on. -/
theorem decodeOp_eq_illegal_iff_le (w : Word) : decodeOp w = .illegal ↔ 4 ≤ w.toNat :=
  (decodeOp_illegal_iff w).trans (rsv_ne_zero_iff w)

end Sys2Proof

namespace Sys2Proof.Machine

/-! ### Acceptance -/

/-- R211: the IDLE engine accepts every CMD write. -/
theorem writeReg_cmd_of_idle {s : State} (hi : s.engState = .idle) (v : Word) :
    writeReg .cmd v s = accept v s :=
  unlessBusy_of_idle hi (accept v)

/-! ### The result of each command -/

/-- R212: the BUSY engine's step on a command. -/
theorem engineStep_of_command {s : State} {i : Instr} (hb : s.engState = .busy)
    (ho : s.engOp = .command i) : engineStep s = exec i s := by
  simp only [engineStep, hb, ho]

/-- R214: MIX's one check. -/
theorem exec_mix_result {s t : State} (h : exec .mix s = .next t) : t.result =
    if s.L > s.params.msgMax ∨ s.K > s.params.keyMax then .badParam else .ok := by
  simp only [← mixOutOfRange_eq_true_iff]
  rcases exec_mix_cases s with ⟨hr, he⟩ | ⟨hr, -, he⟩ | ⟨hr, -, he⟩ <;> rw [he] at h <;> cases h
  · simp [hr]
  · simp [hr]
  · simp [hr]

/-- R214 and R215: EMBED's checks, the range before the capacity. -/
theorem exec_embed_result {s t : State} (h : exec .embed s = .next t) : t.result =
    if s.P > s.params.pixMax ∨ s.L > s.params.msgMax ∨ s.K > s.params.keyMax then .badParam
    else if 32 + 8 * s.L > 3 * s.P then .capacityExceeded else .ok := by
  simp only [← embedOutOfRange_eq_true_iff]
  rcases exec_embed_cases s with ⟨hr, he⟩ | ⟨hr, hlong, he⟩ | ⟨hr, hfit, he⟩ <;>
    rw [he] at h <;> cases h
  · simp [hr]
  · simp [hr, hlong]
  · simp [hr, hfit.not_gt]

/-- R214 and R215: EXTRACT's checks, the range, then the buffer's size, then the declared length. -/
theorem exec_extract_result {s t : State} (h : exec .extract s = .next t) : t.result =
    if s.P > s.params.pixMax ∨ s.K > s.params.keyMax then .badParam
    else if 3 * s.P < 32 then .noMsgTooSmall
    else if declaredLength s = 0 ∨ 32 + 8 * declaredLength s > 3 * s.P then .noMsgBadLength
    else .ok := by
  simp only [← extractOutOfRange_eq_true_iff]
  rcases exec_extract_cases s with ⟨hr, he⟩ | ⟨hr, hsmall, he⟩ | ⟨hr, h32, hbad, he⟩ | ⟨-, -, -, -, he⟩ |
    ⟨hr, h1, hfit, -, he⟩ <;> rw [he] at h <;> cases h
  · simp [hr]
  · simp [hr, hsmall]
  · simp [hr, h32.not_gt, hbad]
  · have h32 : ¬ 3 * s.P < 32 := by omega
    have hgood : ¬ (declaredLength s = 0 ∨ 32 + 8 * declaredLength s > 3 * s.P) := by omega
    simp [hr, h32, hgood]

end Sys2Proof.Machine

namespace Sys2Proof.Proofs

open Sys2Proof.Machine

/-- Settles O38: under R8 the engine's step answers a next state, and its result is that of the operation
in flight. -/
theorem resultIsFirstApplicableCause : Obligations.ResultIsFirstApplicableCause := by
  unfold Obligations.ResultIsFirstApplicableCause
  intro s hw hb
  obtain ⟨t, ht⟩ := engineStep_answers hw
  refine ⟨t, ht, fun ho => ?_, fun ho => ?_, fun ho => ?_, fun ho => ?_, fun ho => ?_⟩
  · rw [engineStep_of_illegal hb ho] at ht
    cases ht
    rfl
  · rw [engineStep_of_command hb ho, exec_nop] at ht
    cases ht
    rfl
  · exact exec_mix_result (engineStep_of_command hb ho ▸ ht)
  · exact exec_embed_result (engineStep_of_command hb ho ▸ ht)
  · exact exec_extract_result (engineStep_of_command hb ho ▸ ht)

/-- Settles O8: the CMD write is `accept` while IDLE, which clears DONE, and `setHazard` while BUSY; each of
the words 0 to 3 is a command's encoding. -/
theorem idleCommandWriteIsAccepted : Obligations.IdleCommandWriteIsAccepted := by
  unfold Obligations.IdleCommandWriteIsAccepted
  refine ⟨fun s v hi => ?_, fun s v hb => ?_, decodeOp_encode .nop, decodeOp_encode .embed,
    decodeOp_encode .extract, decodeOp_encode .mix, fun v => (decodeOp_eq_illegal_iff_le v).2⟩
  · rw [transact_sw, writeReg_cmd_of_idle hi]
    exact ⟨rfl, irq_of_not_done (accept_done v s)⟩
  · rw [transact_sw, writeReg_of_busy hb (.inl rfl)]
    rfl

end Sys2Proof.Proofs
end

section
/-! Steps and the reset (70_reset R240 to R242, R247): what a step can do, the invariant operation by
operation, the block under reset; and the statements O3, O2, O1, O5 and O6. -/

namespace Sys2Proof.Machine

/-! ### What a step can do -/

/-- `s` with its next event taken from `inputs`. -/
def afterEvent (s : State) : State := { s with inputs := s.inputs.tail }

@[simp] theorem cells_with_inputs (s : State) (es : List Event) (M : MemName) :
    State.cells { s with inputs := es } M = s.cells M := by cases M <;> rfl

theorem afterEvent_of_nil {s : State} (h : s.inputs = []) : afterEvent s = s := by
  cases s
  cases h
  rfl

theorem afterEvent_of_cons {s : State} {e : Event} {rest : List Event} (h : s.inputs = e :: rest) :
    afterEvent s = { s with inputs := rest } := by
  rw [afterEvent, h, List.tail_cons]

/-- The one inversion lemma of `step`: the engine's turn, a host transaction with `rst` released, or a
change of the reset input. -/
theorem step_next_cases {s t : State} (h : step s = .next t) :
    (engineStep (afterEvent s) = .next t) ∨
    (∃ tr rest, s.inputs = .host tr :: rest ∧ s.rst = false ∧ t = hostStep tr (afterEvent s)) ∨
    (∃ rest, s.inputs = .assertReset :: rest ∧ t = assertReset (afterEvent s)) ∨
    t = releaseReset (afterEvent s) := by
  cases hin : s.inputs with
  | nil =>
    rw [step_nil hin] at h
    rw [afterEvent_of_nil hin]
    exact .inl h
  | cons e rest =>
    rw [step_cons hin, ← afterEvent_of_cons hin] at h
    cases e with
    | host tr =>
      have hrst : (afterEvent s).rst = s.rst := rfl
      cases hr : s.rst
      · simp [eventStep, hostEvent, hrst, hr] at h
        exact .inr (.inl ⟨tr, rest, rfl, rfl, h.symm⟩)
      · simp [eventStep, hostEvent, hrst, hr] at h
    | engine => exact .inl h
    | assertReset =>
      cases h
      exact .inr (.inr (.inl ⟨rest, rfl, rfl⟩))
    | releaseReset =>
      cases h
      exact .inr (.inr (.inr rfl))

/-! ### The state after reset -/

/-- R26 and R38: after reset every field of STATUS is 0. -/
theorem statusWord_afterReset (p : Config.Params) (d : Nat) :
    statusWord (State.afterReset p d) = 0#32 :=
  show 0#26 ++ BitVec.ofBool false ++ Result.code .ok ++ BitVec.ofBool false ++ BitVec.ofBool false = 0#32
  by decide

/-- R27 and R38: after reset DONEIE is 0. -/
theorem intenWord_afterReset (p : Config.Params) (d : Nat) :
    intenWord (State.afterReset p d) = 0#32 :=
  show 0#31 ++ BitVec.ofBool false = 0#32 by decide

/-- R38 and R241: no byte is written yet, so each reads as its free value. -/
theorem memRead_afterReset (p : Config.Params) (d : Nat) (M : MemName) (a : Nat) :
    memRead M a (State.afterReset p d) = Config.resetByte d M a := by
  cases M <;> rfl

/-! ### The invariant -/

theorem afterReset_memoryGood (p : Config.Params) (d : Nat) (M : MemName) :
    memoryGood M (State.afterReset p d) := by
  cases M <;> exact ⟨rfl, rfl⟩

/-- The invariant holds after every reset. -/
theorem afterReset_inv {p : Config.Params} (d : Nat) (hp : p.wf = true) : (State.afterReset p d).Inv where
  params_wf := hp
  memories_good := afterReset_memoryGood p d
  busy_not_done := fun _ => rfl
  reset_held := fun h => by cases h

/-- What the outside world does next is no part of the invariant. -/
theorem afterEvent_inv {s : State} (h : s.Inv) : (afterEvent s).Inv where
  params_wf := h.params_wf
  memories_good := fun M => memoryGood_congr (cells_with_inputs ..) rfl (h.memories_good M)
  busy_not_done := h.busy_not_done
  reset_held := fun hr => by
    have := h.reset_held hr
    rw [afterEvent]
    exact congrArg (fun u : State => { u with inputs := s.inputs.tail }) this

/-- R240: while `rst` is asserted the engine is IDLE. -/
theorem rst_of_busy {s : State} (h : s.Inv) (hb : s.engState = .busy) : s.rst = false := by
  cases hr : s.rst
  · rfl
  · rw [h.reset_held hr] at hb
    cases hb

theorem engineStep_good {s t : State} (h : engineStep s = .next t) (hm : ∀ M, memoryGood M s)
    (M : MemName) : memoryGood M t := by
  rcases engineStep_cases s with ⟨-, he⟩ | ⟨i, -, -, he⟩ | ⟨-, -, he⟩ <;> rw [he] at h
  · cases h
    exact hm M
  · exact exec_good h hm M
  · cases h
    exact memoryGood_congr (cells_complete ..) rfl (hm M)

theorem engineStep_of_idle {s : State} (hi : s.engState = .idle) : engineStep s = .next s := by
  simp only [engineStep, hi]

/-- The engine's turn keeps the invariant: it ends in IDLE, and a BUSY engine is not under reset. -/
theorem engineStep_inv {s t : State} (hs : s.Inv) (h : engineStep s = .next t) : t.Inv := by
  cases hb : s.engState with
  | idle =>
    rw [engineStep_of_idle hb] at h
    cases h
    exact hs
  | busy =>
    obtain ⟨⟨hidle, -⟩, ⟨hparams, hrst, -⟩, -⟩ := engineStep_frame hb h
    exact {
      params_wf := hparams ▸ hs.params_wf
      memories_good := engineStep_good h hs.memories_good
      busy_not_done := fun hbusy => by rw [hidle] at hbusy; cases hbusy
      reset_held := fun hr => by rw [hrst, rst_of_busy hs hb] at hr; cases hr }

/-- R211: a register write that leaves the engine BUSY leaves DONE at 0. -/
theorem writeReg_busy_not_done {r : Reg} {v : Word} {s : State}
    (hs : s.engState = .busy → s.done = false) (hb : (writeReg r v s).engState = .busy) :
    (writeReg r v s).done = false := by
  cases he : s.engState with
  | busy => cases r <;> simp [writeReg, unlessBusy_of_busy he, hs he]
  | idle => cases r <;> simp [writeReg, unlessBusy_of_idle he, he] at hb ⊢

/-- R211: so does every transaction. -/
theorem transact_busy_not_done {tr : Transaction} {s : State}
    (hs : s.engState = .busy → s.done = false) (hb : (transact tr s).2.engState = .busy) :
    (transact tr s).2.done = false := by
  rcases transact_state_cases tr s with h | ⟨h, -⟩ | ⟨r, -, -, -, h⟩ | ⟨M, a, hi, -, -, h⟩ <;>
    rw [h] at hb ⊢
  · exact hs hb
  · exact hs hb
  · exact writeReg_busy_not_done hs hb
  · rw [memWriteList_engState, hi] at hb
    cases hb

theorem cells_with_response (s : State) (r : Option Response) (M : MemName) :
    State.cells { s with response := r } M = s.cells M := by cases M <;> rfl

theorem hostStep_inv {tr : Transaction} {s : State} (hs : s.Inv) (hr : s.rst = false) :
    (hostStep tr s).Inv where
  params_wf := (hostStep_params tr s).symm ▸ hs.params_wf
  memories_good := fun M =>
    memoryGood_congr (cells_with_response ..) rfl (transact_good hs.memories_good M)
  busy_not_done := transact_busy_not_done hs.busy_not_done
  reset_held := fun hrst => by rw [hostStep_rst, hr] at hrst; cases hrst

theorem assertReset_inv {s : State} (hs : s.Inv) : (assertReset s).Inv where
  params_wf := hs.params_wf
  memories_good := afterReset_memoryGood s.params (s.drawNo + 1)
  busy_not_done := fun _ => rfl
  reset_held := fun _ => rfl

theorem releaseReset_inv {s : State} (hs : s.Inv) : (releaseReset s).Inv where
  params_wf := hs.params_wf
  memories_good := hs.memories_good
  busy_not_done := hs.busy_not_done
  reset_held := fun h => by cases h

/-! ### Runs and the reset -/

theorem runSteps_add {m : Nat} {s t : State} (h : runSteps m s = .next t) (n : Nat) :
    runSteps (m + n) s = runSteps n t := by
  induction m generalizing s with
  | zero =>
    cases h
    rw [Nat.zero_add]
  | succ m ih =>
    cases hs : step s with
    | next u =>
      rw [runSteps_next hs] at h
      rw [Nat.add_right_comm, runSteps_next hs, ih h]
    | fault f =>
      rw [runSteps_succ, hs] at h
      cases h
    | refused r =>
      rw [runSteps_succ, hs] at h
      cases h

/-- The state that the block holds while `rst` is asserted (R240), with the events `es` to come. -/
def resetHeld (p : Config.Params) (d : Nat) (es : List Event) : State :=
  { State.afterReset p d with rst := true, inputs := es }

theorem step_assertReset {s : State} {rest : List Event} (h : s.inputs = .assertReset :: rest) :
    step s = .next (resetHeld s.params (s.drawNo + 1) rest) :=
  step_cons h

theorem step_resetHeld_release (p : Config.Params) (d : Nat) (es : List Event) :
    step (resetHeld p d (.releaseReset :: es)) = .next { State.afterReset p d with inputs := es } :=
  rfl

/-- R240: the engine's turns change nothing while `rst` is asserted. -/
theorem runSteps_resetHeld (p : Config.Params) (d j : Nat) (es : List Event) :
    runSteps j (resetHeld p d (List.replicate j .engine ++ es)) = .next (resetHeld p d es) := by
  induction j with
  | zero => rfl
  | succ j ih =>
    have hstep : step (resetHeld p d (List.replicate (j + 1) .engine ++ es)) =
        .next (resetHeld p d (List.replicate j .engine ++ es)) := rfl
    rw [runSteps_next hstep, ih]

theorem step_host {s : State} {tr : Transaction} {rest : List Event} (hr : s.rst = false)
    (h : s.inputs = .host tr :: rest) : step s = .next (hostStep tr { s with inputs := rest }) := by
  rw [step_cons h, eventStep, hostEvent, if_neg (by simp [hr])]

/-- R211: the step of a CMD write that finds the engine IDLE. -/
theorem hostStep_cmd_of_idle {s : State} (hi : s.engState = .idle) (v : Word) :
    hostStep (sw Reg.cmd.offset v) s = { accept v s with response := some (okay 0#32) } := by
  rw [hostStep, transact_sw, writeReg_cmd_of_idle hi]

end Sys2Proof.Machine

namespace Sys2Proof.Proofs

open Sys2Proof.Machine

/-- Settles O3: what a step can do is the engine's turn, a host transaction with `rst` released or a change
of the reset input, and each keeps the invariant. -/
theorem everyStepKeepsInvariant : Obligations.EveryStepKeepsInvariant := by
  unfold Obligations.EveryStepKeepsInvariant
  intro s t hs h
  have hs' := afterEvent_inv hs
  rcases step_next_cases h with he | ⟨tr, rest, -, hr, rfl⟩ | ⟨rest, -, rfl⟩ | rfl
  · exact engineStep_inv hs' he
  · exact hostStep_inv hs' hr
  · exact assertReset_inv hs'
  · exact releaseReset_inv hs'

/-- Settles O2: the memories are empty, DONE is 0 and `rst` is released; the reference configuration is
within R8. -/
theorem resetStateMeetsInvariant : Obligations.ResetStateMeetsInvariant := by
  unfold Obligations.ResetStateMeetsInvariant
  exact ⟨fun p d hp => afterReset_inv d hp, afterReset_inv 0 (by decide)⟩

/-- Settles O1: each register reads the value that `State.afterReset` names for it, and a memory with no
written byte reads as the reset's free values. -/
theorem resetStateHoldsSpecValues : Obligations.ResetStateHoldsSpecValues := by
  unfold Obligations.ResetStateHoldsSpecValues
  refine ⟨fun p d => ⟨rfl, rfl, rfl, statusWord_afterReset p d, intenWord_afterReset p d, rfl, rfl, rfl,
    rfl, rfl, rfl, rfl, rfl, memRead_afterReset p d, rfl⟩, fun s => rfl⟩

/-- Settles O5: the assertion leaves the held reset state, which the engine's turns do not change and the
release turns into the state after reset. -/
theorem resetAbandonsCommandInFlight : Obligations.ResetAbandonsCommandInFlight := by
  unfold Obligations.ResetAbandonsCommandInFlight
  intro s k rest hin
  have hassert := step_assertReset hin
  refine ⟨fun j hj => ?_, ?_⟩
  · have hsplit : List.replicate k Event.engine ++ .releaseReset :: rest = List.replicate j .engine ++
        (List.replicate (k - j) .engine ++ .releaseReset :: rest) := by
      rw [← List.append_assoc, List.replicate_append_replicate, Nat.add_sub_cancel' hj]
    rw [runSteps_next hassert, hsplit, runSteps_resetHeld]
    exact ⟨_, rfl, rfl, rfl, rfl, rfl⟩
  · rw [show k + 2 = (k + 1) + 1 from rfl, runSteps_next hassert,
      runSteps_add (runSteps_resetHeld _ _ k _) 1, runSteps_next (step_resetHeld_release _ _ _),
      runSteps_zero]

/-- Settles O6: the engine is IDLE after reset, so its turn changes nothing and a CMD write is accepted. -/
theorem readyAfterReset : Obligations.ReadyAfterReset := by
  unfold Obligations.ReadyAfterReset
  refine fun p d => ⟨?_, rfl, fun v rest => ⟨_, step_host rfl rfl, ?_⟩⟩
  · rw [step_nil rfl, engineStep_of_idle rfl]
  · rw [hostStep_cmd_of_idle rfl]
    exact ⟨rfl, rfl, rfl, rfl⟩

end Sys2Proof.Proofs
end

section
/-! Steps of the engine and of the host (60_exceptions R212 to R216, 70_reset R240 to R248): which steps
answer, what a transaction leaves while BUSY, what clears the sticky flags; and the statements O4, O7, O41,
O57 and O58. -/

namespace Sys2Proof.Machine

/-! ### Which steps answer -/

theorem engineStep_params {s t : State} (h : engineStep s = .next t) : t.params = s.params := by
  cases hb : s.engState with
  | idle =>
    rw [engineStep_of_idle hb] at h
    cases h
    rfl
  | busy =>
    obtain ⟨-, ⟨hparams, -⟩, -⟩ := engineStep_frame hb h
    exact hparams

/-- R240: a transaction while `rst` is asserted is refused. -/
theorem step_host_of_rst {s : State} {tr : Transaction} {rest : List Event} (hr : s.rst = true)
    (h : s.inputs = .host tr :: rest) : step s = .refused .transactionDuringReset := by
  rw [step_cons h, eventStep, hostEvent, if_pos hr]

theorem step_engine {s : State} {rest : List Event} (h : s.inputs = .engine :: rest) :
    step s = engineStep { s with inputs := rest } :=
  step_cons h

/-- Under R8 the engine's turn answers a next state with the same parameters. -/
theorem engineStep_answers_params {s : State} (hw : s.params.wf = true) :
    ∃ t, engineStep s = .next t ∧ t.params = s.params := by
  obtain ⟨t, ht⟩ := engineStep_answers hw
  exact ⟨t, ht, engineStep_params ht⟩

/-! ### The engine while BUSY -/

/-- R212: under R8 the turn of a BUSY engine completes its command. -/
theorem engineStep_completes {s : State} (hw : s.params.wf = true) (hb : s.engState = .busy) :
    ∃ t, engineStep s = .next t ∧ t.engState = .idle ∧ t.done = true := by
  obtain ⟨t, ht⟩ := engineStep_answers hw
  obtain ⟨⟨hidle, -, hdone, -⟩, -⟩ := engineStep_frame hb ht
  exact ⟨t, ht, hidle, hdone⟩

/-- R23: no transaction takes a BUSY engine out of BUSY, whatever DONE is. -/
theorem transact_engState_of_busy {s : State} (hb : s.engState = .busy) (tr : Transaction) :
    (transact tr s).2.engState = .busy := by
  rcases transact_state_cases tr s with h | ⟨h, -⟩ | ⟨r, -, -, -, h⟩ | ⟨M, a, hi, -⟩
  · rw [h, hb]
  · rw [h, setHazard_engState, hb]
  · rw [h]
    cases r <;> simp [writeReg, unlessBusy_of_busy hb, hb]
  · rw [hi] at hb
    cases hb

/-- Within `n` steps the run from `s` reaches a state with the engine IDLE and DONE = 1. -/
def completesWithin (n : Nat) (s : State) : Prop :=
  ∃ k ≤ n, ∃ t, runSteps k s = .next t ∧ t.engState = .idle ∧ t.done = true

theorem completesWithin_of_step {n : Nat} {s u : State} (hstep : step s = .next u)
    (hu : completesWithin n u) : completesWithin (n + 1) s := by
  obtain ⟨k, hk, t, ht, hdone⟩ := hu
  exact ⟨k + 1, Nat.succ_le_succ hk, t, (runSteps_next hstep).trans ht, hdone⟩

/-- R212: one step is enough where it is the turn of a BUSY engine. -/
theorem completesWithin_of_engineStep (n : Nat) {s u : State} (hstep : step s = engineStep u)
    (hw : u.params.wf = true) (hb : u.engState = .busy) : completesWithin (n + 1) s := by
  obtain ⟨t, ht, hidle, hdone⟩ := engineStep_completes hw hb
  exact ⟨1, Nat.le_add_left 1 n, t, runSteps_next (hstep.trans ht), hidle, hdone⟩

/-- R248: with no reset to come a BUSY engine completes within one step more than the inputs' number. -/
theorem completesWithin_of_busy {es : List Event} {s : State} (hin : s.inputs = es)
    (hw : s.params.wf = true) (hr : s.rst = false) (hb : s.engState = .busy)
    (hes : Event.assertReset ∉ es) : completesWithin (es.length + 1) s := by
  induction es generalizing s with
  | nil => exact completesWithin_of_engineStep 0 (step_nil hin) hw hb
  | cons e es ih =>
    have hes' : Event.assertReset ∉ es := fun h => hes (List.mem_cons_of_mem e h)
    cases e with
    | host tr =>
      exact completesWithin_of_step (step_host hr hin) (ih (by simp) (by simpa using hw)
        (by simpa using hr) (transact_engState_of_busy (s := { s with inputs := es }) hb tr) hes')
    | engine =>
      exact completesWithin_of_engineStep _ (u := { s with inputs := es }) (step_engine hin) hw hb
    | assertReset => exact absurd List.mem_cons_self hes
    | releaseReset => exact completesWithin_of_step (step_cons hin) (ih rfl hw rfl hb hes')

/-! ### What clears the sticky flags -/

theorem engineStep_hazerr {s t : State} (h : engineStep s = .next t) : t.hazerr = s.hazerr := by
  cases hb : s.engState with
  | idle =>
    rw [engineStep_of_idle hb] at h
    cases h
    rfl
  | busy =>
    obtain ⟨⟨-, -, -, -, hhazerr, -⟩, -⟩ := engineStep_frame hb h
    exact hhazerr

/-- R26: the engine's turn does not clear DONE. -/
theorem engineStep_done {s t : State} (h : engineStep s = .next t) (hd : s.done = true) :
    t.done = true := by
  cases hb : s.engState with
  | idle =>
    rw [engineStep_of_idle hb] at h
    cases h
    exact hd
  | busy =>
    obtain ⟨⟨-, -, hdone, -⟩, -⟩ := engineStep_frame hb h
    exact hdone

/-- R26: the one register write that clears HAZERR. -/
theorem writeReg_clears_hazerr {r : Reg} {v : Word} {s : State} (hs : s.hazerr = true)
    (ht : (writeReg r v s).hazerr = false) : r = .status ∧ v.getLsbD 5 = true := by
  cases hb : s.engState with
  | busy =>
    cases r <;> simp [writeReg, unlessBusy_of_busy hb, hs] at ht ⊢
    exact ht
  | idle =>
    cases r <;> simp [writeReg, unlessBusy_of_idle hb, hs] at ht ⊢
    exact ht

/-- R26 and R211: the register writes that clear DONE. -/
theorem writeReg_clears_done {r : Reg} {v : Word} {s : State} (hs : s.done = true)
    (ht : (writeReg r v s).done = false) :
    (r = .status ∧ v.getLsbD 1 = true) ∨ (r = .cmd ∧ s.engState = .idle) := by
  cases hb : s.engState with
  | busy =>
    cases r <;> simp [writeReg, unlessBusy_of_busy hb, hs] at ht ⊢
    exact ht
  | idle =>
    cases r <;> simp [writeReg, unlessBusy_of_idle hb, hs] at ht ⊢
    exact ht

/-- R26: the transactions that clear HAZERR. -/
theorem transact_clears_hazerr {tr : Transaction} {s : State} (hs : s.hazerr = true)
    (ht : (transact tr s).2.hazerr = false) :
    tr.kind = .write ∧ tr.addr = Reg.status.offset ∧ tr.wdata.getLsbD 5 = true := by
  rcases transact_state_cases tr s with h | ⟨h, -⟩ | ⟨r, hk, -, ha, h⟩ | ⟨M, a, -, -, -, h⟩ <;>
    rw [h] at ht
  · simp [hs] at ht
  · simp at ht
  · obtain ⟨rfl, hbit⟩ := writeReg_clears_hazerr hs ht
    exact ⟨hk, ha, hbit⟩
  · simp [hs] at ht

/-- R26 and R211: the transactions that clear DONE. -/
theorem transact_clears_done {tr : Transaction} {s : State} (hs : s.done = true)
    (ht : (transact tr s).2.done = false) : tr.kind = .write ∧
      ((tr.addr = Reg.status.offset ∧ tr.wdata.getLsbD 1 = true) ∨
        (tr.addr = Reg.cmd.offset ∧ s.engState = .idle)) := by
  rcases transact_state_cases tr s with h | ⟨h, -⟩ | ⟨r, hk, -, ha, h⟩ | ⟨M, a, -, -, -, h⟩ <;>
    rw [h] at ht
  · simp [hs] at ht
  · simp [hs] at ht
  · rcases writeReg_clears_done hs ht with ⟨rfl, hbit⟩ | ⟨rfl, hi⟩
    · exact ⟨hk, .inl ⟨ha, hbit⟩⟩
    · exact ⟨hk, .inr ⟨ha, hi⟩⟩
  · simp [hs] at ht

/-! ### A transaction and a completion in one cycle -/

theorem hostEvent_of_released {s : State} (hr : s.rst = false) (t : Transaction) :
    hostEvent t s = .next (hostStep t s) :=
  if_neg (by simp [hr])

/-- R216: the transaction before the completion. -/
theorem sameCycle_of_transactionFirst {t : Transaction} {choice : Bool} {s : State}
    (hr : s.rst = false) (h : transactionFirst t choice s = true) :
    sameCycle t choice s = engineStep (hostStep t s) := by
  rw [sameCycle, if_pos h, hostEvent_of_released hr]

/-- R216: the completion before the transaction. -/
theorem sameCycle_of_completionFirst {t : Transaction} {choice : Bool} {s u : State}
    (hr : s.rst = false) (hb : s.engState = .busy) (hu : engineStep s = .next u)
    (h : transactionFirst t choice s = false) :
    sameCycle t choice s = .next (hostStep t u) := by
  obtain ⟨-, ⟨-, hrst, -⟩, -⟩ := engineStep_frame hb hu
  rw [sameCycle, if_neg (by simp [h]), hu]
  exact hostEvent_of_released (hrst.trans hr) t

/-- R216 (a): a write that clears DONE goes first. -/
theorem transactionFirst_status {w : Word} (hw : w.getLsbD 1 = true) (choice : Bool) (s : State) :
    transactionFirst (sw Reg.status.offset w) choice s = true := by
  rw [transactionFirst, target_reg s.params (sw Reg.status.offset w) .status rfl rfl]
  exact if_pos hw

/-- R216 (b): a CMD write does not. -/
theorem transactionFirst_cmd (v : Word) (choice : Bool) (s : State) :
    transactionFirst (sw Reg.cmd.offset v) choice s = false := by
  rw [transactionFirst, target_reg s.params (sw Reg.cmd.offset v) .cmd rfl rfl]
  rfl

end Sys2Proof.Machine

namespace Sys2Proof.Proofs

open Sys2Proof.Machine

/-- Settles O4: under R8 the engine's turn answers, the two changes of the reset input always do, and a
transaction is refused exactly while `rst` is asserted. -/
theorem stepAnswersUnlessTransactionDuringReset : Obligations.StepAnswersUnlessTransactionDuringReset := by
  unfold Obligations.StepAnswersUnlessTransactionDuringReset
  refine fun s hw => ⟨fun ⟨hr, tr, rest, hin⟩ => step_host_of_rst hr hin, fun hno => ?_⟩
  cases hin : s.inputs with
  | nil =>
    rw [step_nil hin]
    exact engineStep_answers_params hw
  | cons e rest =>
    cases e with
    | host tr =>
      have hr : s.rst = false := Bool.eq_false_iff.2 fun hr => hno ⟨hr, tr, rest, hin⟩
      exact ⟨_, step_host hr hin, hostStep_params ..⟩
    | engine =>
      rw [step_engine hin]
      exact engineStep_answers_params (s := { s with inputs := rest }) hw
    | assertReset => exact ⟨_, step_assertReset hin, rfl⟩
    | releaseReset => exact ⟨_, step_cons hin, rfl⟩

/-- Settles O7: the next event is the engine's turn, which runs the command that the engine holds, or the
host's. -/
theorem stepRunsTheDecodedCommand : Obligations.StepRunsTheDecodedCommand := by
  unfold Obligations.StepRunsTheDecodedCommand
  refine ⟨fun s w i hdec => ?_, fun s i hb ho => ⟨fun hin => ?_, fun rest hin => ?_⟩,
    fun s hi => ⟨fun hin => ?_, fun rest hin => ?_⟩, fun s t rest hr hin => step_host hr hin⟩
  · have hop : decodeOp (tableWord 32 w) = .command i :=
      decodeOp_of_ok ((decodeTableWord_some_iff 32 w i).1 hdec)
    rw [State.withFetchWord, withCommandNext, accept, hop, step_engine rfl, engineStep_of_command rfl rfl]
  · rw [step_nil hin, engineStep_of_command hb ho]
  · rw [step_engine hin]
    exact engineStep_of_command hb ho
  · rw [step_nil hin, engineStep_of_idle hi]
  · rw [step_engine hin]
    exact engineStep_of_idle hi

/-- Settles O41: by induction on the inputs; the engine's turn completes the command, and every other event
but an assertion of reset leaves the engine BUSY. -/
theorem acceptedCommandEventuallyCompletes : Obligations.AcceptedCommandEventuallyCompletes := by
  unfold Obligations.AcceptedCommandEventuallyCompletes
  exact fun s hw hr hb hno => completesWithin_of_busy rfl hw hr hb hno

/-- Settles O57: the engine's turn clears neither flag, a release of reset changes `rst` alone, and a
transaction that clears a flag is one of the register writes that do. -/
theorem stickyFlagsAreClearedOnlyAsStated : Obligations.StickyFlagsAreClearedOnlyAsStated := by
  unfold Obligations.StickyFlagsAreClearedOnlyAsStated
  intro s t h
  rcases step_next_cases h with he | ⟨tr, rest, hin, -, rfl⟩ | ⟨rest, hin, -⟩ | rfl
  · refine ⟨fun hs ht => ?_, fun hs ht => ?_⟩
    · rw [engineStep_hazerr he] at ht
      exact absurd (hs.symm.trans ht) (by decide)
    · rw [engineStep_done he hs] at ht
      cases ht
  · exact ⟨fun hs ht => .inr ⟨tr, rest, hin, transact_clears_hazerr (s := afterEvent s) hs ht⟩,
      fun hs ht => .inr ⟨tr, rest, hin, transact_clears_done (s := afterEvent s) hs ht⟩⟩
  · exact ⟨fun _ _ => .inl ⟨rest, hin⟩, fun _ _ => .inl ⟨rest, hin⟩⟩
  · exact ⟨fun hs ht => absurd (hs.symm.trans ht) (by decide),
      fun hs ht => absurd (hs.symm.trans ht) (by decide)⟩

/-- Settles O58: either order gives one of the two results; after a write that clears DONE the completion
sets it again, and after the completion a CMD write finds the engine IDLE. -/
theorem sameCycleResolutions : Obligations.SameCycleResolutions := by
  unfold Obligations.SameCycleResolutions
  intro s t choice hw hr hb
  obtain ⟨u, hu⟩ := engineStep_answers hw
  refine ⟨?_, ?_, ?_⟩
  · cases hfirst : transactionFirst t choice s
    · exact .inr ⟨u, hu, sameCycle_of_completionFirst hr hb hu hfirst⟩
    · exact .inl (sameCycle_of_transactionFirst hr hfirst)
  · rintro w hbit rfl
    obtain ⟨x, hx, hidle, hdone⟩ := engineStep_completes (s := hostStep (sw Reg.status.offset w) s)
      (by rwa [hostStep_params]) (transact_engState_of_busy hb _)
    rw [sameCycle_of_transactionFirst hr (transactionFirst_status hbit choice s)]
    exact ⟨x, hx, hdone, hidle⟩
  · rintro v rfl
    obtain ⟨⟨hidle, -, -, -, hhazerr, -⟩, -⟩ := engineStep_frame hb hu
    rw [sameCycle_of_completionFirst hr hb hu (transactionFirst_cmd v choice s), hostStep_cmd_of_idle hidle]
    exact ⟨_, rfl, rfl, rfl, hhazerr⟩

end Sys2Proof.Proofs
end

section
/-! MIX and EMBED run on two states (41_codec R156, 42_mixer_control R194): a second MIX undoes the first,
EMBED is a function of its operands and idempotent on PIXMEM, its boundary cases; and the statements O16 and
O21 to O24. -/

namespace Sys2Proof.Machine

/-! ### MIX twice -/

theorem mixOutOfRange_congr {s s' : State} (hp : s'.params = s.params) (hl : s'.msglen = s.msglen)
    (hk : s'.keylen = s.keylen) : mixOutOfRange s' = mixOutOfRange s := by
  rw [Bool.eq_iff_iff, mixOutOfRange_eq_true_iff, mixOutOfRange_eq_true_iff, State.L, State.K, hp, hl, hk]
  rfl

/-- R194 (b): a second loop with the same key bytes, on the bytes that the first left, restores them. -/
theorem mixLoop_mixLoop {k n : Nat} {s s' : State} (hk : 1 ≤ k)
    (hkey : ∀ a < k, memRead .keymem a s' = memRead .keymem a s)
    (hmsg : ∀ a, memRead .msgmem a s' = memRead .msgmem a (mixLoop k n 0 s)) (a : Nat) :
    memRead .msgmem a (mixLoop k n 0 s') = memRead .msgmem a s := by
  by_cases ha : a < n
  · rw [mixLoop_messageByte k ha, hmsg, mixLoop_messageByte k ha, hkey _ (Nat.mod_lt a hk),
      BitVec.xor_assoc, BitVec.xor_self, BitVec.xor_zero]
  · have ha : n ≤ a := Nat.not_lt.1 ha
    rw [mixLoop_pastMessage k ha, hmsg, mixLoop_pastMessage k ha]

/-! ### EMBED is a function of its operands -/

theorem embedOutOfRange_congr {s s' : State} (hp : s'.params = s.params)
    (hr : sameOperandRegs s s') : embedOutOfRange s' = embedOutOfRange s := by
  obtain ⟨h1, h2, h3⟩ := hr
  rw [Bool.eq_iff_iff, embedOutOfRange_eq_true_iff, embedOutOfRange_eq_true_iff, State.P, State.L, State.K,
    hp, h1, h2, h3]
  rfl

/-- R154: what one PIXMEM byte is after the walk, whether an element's channel or not. -/
theorem embedWalk_byte_cases (a : Nat) (bs : BitString) :
    (∃ i < bs.length, ∀ s : State, memRead .pixmem a (embedWalk 0 bs s) =
      replaceLsb (memRead .pixmem a s) (bs.getD i false)) ∨
    (∀ s : State, memRead .pixmem a (embedWalk 0 bs s) = memRead .pixmem a s) := by
  by_cases h : ∃ i < bs.length, a = chan i
  · obtain ⟨i, hi, rfl⟩ := h
    refine .inl ⟨i, hi, fun s => ?_⟩
    have := embedWalk_channel 0 i bs s hi
    rwa [Nat.zero_add] at this
  · push Not at h
    exact .inr fun s => embedWalk_notChannel h s

/-- The walk's PIXMEM is a function of the elements and of PIXMEM before. -/
theorem embedWalk_congr (bs : BitString) {s s' : State} (h : sameBytes .pixmem s s') :
    sameBytes .pixmem (embedWalk 0 bs s) (embedWalk 0 bs s') := by
  intro a
  rcases embedWalk_byte_cases a bs with ⟨i, -, hwalk⟩ | hwalk
  · rw [hwalk, hwalk, h a]
  · rw [hwalk, hwalk, h a]

theorem replaceLsb_replaceLsb (v : Byte) (b : Bool) :
    replaceLsb (replaceLsb v b) b = replaceLsb v b := by
  apply BitVec.eq_of_getLsbD_eq
  intro i _
  rcases Nat.eq_zero_or_pos i with rfl | hi
  · rw [replaceLsb_zero, replaceLsb_zero]
  · rw [replaceLsb_other _ _ _ hi]

/-- R156 (f): the same walk over the pixels it left changes nothing. -/
theorem embedWalk_again (bs : BitString) {s t : State} (h : sameBytes .pixmem (embedWalk 0 bs s) t) :
    sameBytes .pixmem t (embedWalk 0 bs t) := by
  intro a
  rcases embedWalk_byte_cases a bs with ⟨i, -, hwalk⟩ | hwalk
  · rw [hwalk t, h a, hwalk s, replaceLsb_replaceLsb]
  · rw [hwalk t]

/-- EMBED on two states that agree in its checks, its keyed payload and PIXMEM. -/
theorem exec_embed_congr {s s' : State} (hr : embedOutOfRange s' = embedOutOfRange s)
    (hP : s'.P = s.P) (hL : s'.L = s.L) (henc : embedEncoded s' = embedEncoded s)
    (hpix : sameBytes .pixmem s s') :
    ∃ t t', exec .embed s = .next t ∧ exec .embed s' = .next t' ∧ t'.result = t.result ∧
      sameBytes .pixmem t t' := by
  rcases exec_embed_cases s with ⟨hout, he⟩ | ⟨hin, hlong, he⟩ | ⟨hin, hfit, he⟩
  · exact ⟨_, _, he, exec_embed_of_outOfRange (hr.trans hout), rfl, fun a => by simp [hpix a]⟩
  · exact ⟨_, _, he, exec_embed_of_tooLong (hr.trans hin) (by rwa [hP, hL]), rfl,
      fun a => by simp [hpix a]⟩
  · refine ⟨_, _, he, exec_embed_of_fits (hr.trans hin) (by rwa [hP, hL]), rfl, fun a => ?_⟩
    rw [memRead_complete, memRead_complete, henc, embedWalk_congr _ hpix]

/-! ### A key of zero bytes -/

theorem keyBytes_of_zeros {s : State} (h : ∀ a < s.K, memRead .keymem a s = 0#8) :
    keyBytes s = List.replicate s.K 0#8 := by
  refine List.eq_replicate_iff.2 ⟨keyBytes_length s, fun b hb => ?_⟩
  simp only [keyBytes, memReadList, Nat.zero_add, List.mem_map, List.mem_range] at hb
  obtain ⟨a, ha, rfl⟩ := hb
  exact h a ha

/-- R129: with a key of zero bytes, or none, the keyed payload is the payload. -/
theorem embedEncoded_of_zeros {s : State} (h : ∀ a < s.K, memRead .keymem a s = 0#8) :
    embedEncoded s = embedPayload s := by
  rw [embedEncoded, keyBytes_of_zeros h, xorKey_replicate_zero]

theorem embedPayload_with_keylen (s : State) (v : Word) :
    embedPayload { s with keylen := v } = embedPayload s :=
  congrArg (payloadBits s.msglen) (message_congr (t := { s with keylen := v }) rfl fun _ _ => rfl)

theorem embedEncoded_without_key (s : State) :
    embedEncoded { s with keylen := 0#32 } = embedPayload s :=
  (embedEncoded_of_zeros (s := { s with keylen := 0#32 })
    fun a ha => absurd ha (Nat.not_lt_zero a)).trans (embedPayload_with_keylen s _)

theorem embedOutOfRange_without_key {s : State} (hK : s.K ≤ s.params.keyMax) :
    embedOutOfRange { s with keylen := 0#32 } = embedOutOfRange s := by
  rw [Bool.eq_iff_iff, embedOutOfRange_eq_true_iff, embedOutOfRange_eq_true_iff]
  change s.P > s.params.pixMax ∨ s.L > s.params.msgMax ∨ 0 > s.params.keyMax ↔ _
  omega

/-! ### EMBED's outcome by its sizes -/

/-- R151, R176: for operands in range the sizes alone decide the result. -/
theorem exec_embed_inRange_result {s t : State} (hr : embedOutOfRange s = false)
    (h : exec .embed s = .next t) :
    t.result = if 32 + 8 * s.L > 3 * s.P then .capacityExceeded else .ok := by
  rw [exec_embed_result h, if_neg]
  rw [← embedOutOfRange_eq_true_iff, hr]
  decide

end Sys2Proof.Machine

namespace Sys2Proof.Proofs

open Sys2Proof.Machine

/-- Settles O16: both runs take the same branch of MIX, and the second loop XORs the same key bytes again. -/
theorem mixTwiceRestoresMessage : Obligations.MixTwiceRestoresMessage := by
  unfold Obligations.MixTwiceRestoresMessage
  intro s
  rcases exec_mix_cases s with ⟨hr, he⟩ | ⟨hr, hk, he⟩ | ⟨hr, hk, he⟩
  · refine ⟨_, he, fun s' hp hl hkl hkey hmsg => ⟨_, exec_mix_of_outOfRange ?_, rfl, fun a => ?_⟩⟩
    · exact (mixOutOfRange_congr hp hl hkl).trans hr
    · rw [memRead_complete, hmsg a, memRead_complete]
  · refine ⟨_, he, fun s' hp hl hkl hkey hmsg => ⟨_, exec_mix_of_noKey ?_ ?_, rfl, fun a => ?_⟩⟩
    · exact (mixOutOfRange_congr hp hl hkl).trans hr
    · exact (congrArg BitVec.toNat hkl).trans hk
    · rw [memRead_complete, hmsg a, memRead_complete]
  · have hmem := memOnly_mixLoop s.K s.L 0 s
    refine ⟨_, he, fun s' hp hl hkl hkey hmsg => ?_⟩
    have hl' : s'.msglen = s.msglen := hl.trans (memOnly_msglen hmem :)
    have hkl' : s'.keylen = s.keylen := hkl.trans (memOnly_keylen hmem :)
    have hL : s'.L = s.L := congrArg BitVec.toNat hl'
    have hK : s'.K = s.K := congrArg BitVec.toNat hkl'
    refine ⟨_, exec_mix_of_key ?_ (by omega), rfl, fun a => ?_⟩
    · exact (mixOutOfRange_congr (hp.trans (memOnly_params hmem :)) hl' hkl').trans hr
    · rw [memRead_complete, hL, hK]
      refine mixLoop_mixLoop (by omega) (fun b hb => ?_) (fun b => ?_) a
      · rw [hkey b hb, memRead_complete, mixLoop_otherMem (by decide)]
      · rw [hmsg b, memRead_complete]

/-- Settles O21: in range the sizes decide between OK and CAPACITY_EXCEEDED, and at an exact fit the walk
over `3 * P` elements meets every usable byte. -/
theorem embedEmptyAndExactFit : Obligations.EmbedEmptyAndExactFit := by
  unfold Obligations.EmbedEmptyAndExactFit
  intro s hP hL hK
  have hr := (embedOutOfRange_eq_false_iff s).2 ⟨hP, hL, hK⟩
  have hfits : 32 + 8 * s.L ≤ 3 * s.P → ∀ t, exec .embed s = .next t → t.result = .ok := fun hle t ht =>
    (exec_embed_inRange_result hr ht).trans (if_neg (by omega))
  have hlong : 32 + 8 * s.L > 3 * s.P → ∀ t, exec .embed s = .next t → t.result = .capacityExceeded :=
    fun hgt t ht => (exec_embed_inRange_result hr ht).trans (if_pos hgt)
  obtain ⟨t, ht⟩ : ∃ t, exec .embed s = .next t := by
    rcases exec_embed_cases s with ⟨-, he⟩ | ⟨-, -, he⟩ | ⟨-, -, he⟩ <;> exact ⟨_, he⟩
  refine ⟨t, ht, fun h0 h11 => hfits (by omega) t ht, fun h0 h10 => hlong (by omega) t ht,
    fun h0 => hlong (by omega) t ht, fun hone => hlong (by omega) t ht,
    fun hexact => ⟨hfits hexact.le t ht, fun a ha halpha => ?_⟩⟩
  obtain ⟨i, hi, rfl⟩ := (exists_chan_eq_iff s.P a).2 ⟨ha, halpha⟩
  rw [exec_embed_of_fits hr hexact.le] at ht
  cases ht
  refine ⟨i, hexact ▸ hi, rfl, ?_⟩
  rw [memRead_complete, embedWalk_channel_lsb (by rwa [embedEncoded_length, hexact])]

/-- Settles O22: with zero bytes as with no key the keyed payload is the payload itself. -/
theorem allZeroKeyEmbedsAsNoKey : Obligations.AllZeroKeyEmbedsAsNoKey := by
  unfold Obligations.AllZeroKeyEmbedsAsNoKey
  intro s hK hzero
  have hnoKey : embedEncoded { s with keylen := 0#32 } = embedEncoded s := by
    rw [embedEncoded_of_zeros hzero, embedEncoded_without_key]
  obtain ⟨t, u, ht, hu, hres, hpix⟩ := exec_embed_congr (embedOutOfRange_without_key hK) rfl rfl hnoKey
    fun a => memRead_with_keylen ..
  exact ⟨t, u, ht, hu, hres.symm, hpix⟩

/-- Settles O23: the second run takes the same branch, with the same keyed payload; its walk meets the
pixels that the first left. -/
theorem embedTwiceLeavesSamePixels : Obligations.EmbedTwiceLeavesSamePixels := by
  unfold Obligations.EmbedTwiceLeavesSamePixels
  intro s
  rcases exec_embed_cases s with ⟨hr, he⟩ | ⟨hr, hlong, he⟩ | ⟨hr, hfit, he⟩
  · exact ⟨_, _, he, exec_embed_of_outOfRange hr, rfl, fun M a => rfl⟩
  · exact ⟨_, _, he, exec_embed_of_tooLong hr hlong, rfl, fun M a => rfl⟩
  · have hmem := memOnly_embedWalk 0 (embedEncoded s) s
    have hregs := sameOperandRegs_complete (c := .ok) hmem
    have ⟨hpixcount, hmsglen, hkeylen⟩ := hregs
    have henc : embedEncoded (complete .ok (embedWalk 0 (embedEncoded s) s)) = embedEncoded s :=
      embedEncoded_congr hmsglen hkeylen
        (fun a _ => by rw [memRead_complete, embedWalk_otherMem (by decide)])
        (fun a _ => by rw [memRead_complete, embedWalk_otherMem (by decide)])
    refine ⟨_, _, he, exec_embed_of_fits ?_ ?_, rfl, fun M a => ?_⟩
    · exact (embedOutOfRange_congr (memOnly_params hmem :) hregs).trans hr
    · rw [State.L, State.P, hmsglen, hpixcount]
      exact hfit
    · rw [henc, memRead_complete]
      by_cases hM : M = .pixmem
      · subst hM
        exact embedWalk_again _ (fun b => memRead_complete ..) a
      · exact embedWalk_otherMem hM ..

/-- Settles O24: the checks read the operand registers, and the keyed payload reads the message and key
bytes. -/
theorem embedReadsOnlyItsOperands : Obligations.EmbedReadsOnlyItsOperands := by
  unfold Obligations.EmbedReadsOnlyItsOperands
  intro s s' hp hregs hmsg hkey hpix
  obtain ⟨hpixcount, hmsglen, hkeylen⟩ := hregs
  exact exec_embed_congr (embedOutOfRange_congr hp ⟨hpixcount, hmsglen, hkeylen⟩)
    (congrArg BitVec.toNat hpixcount) (congrArg BitVec.toNat hmsglen)
    (embedEncoded_congr hmsglen hkeylen hmsg hkey) hpix

end Sys2Proof.Proofs
end

section
/-! What a completion writes (60_exceptions R212 and R213): the one inversion lemma of a failure, the
memories and registers each command may write; and the statements O37 and O39. -/

namespace Sys2Proof.Machine

/-! ### Failures -/

/-- R213: a command that does not end with OK writes nothing but STATUS, or HDR beside it. -/
theorem exec_failure_cases {i : Instr} {s t : State} (h : exec i s = .next t) (hok : t.result ≠ .ok) :
    (t = complete t.result s ∧ t.result ≠ .noMsgBadLength) ∨
    (i = .extract ∧ t = complete .noMsgBadLength (writeHdr (declaredLength s) s)) := by
  rcases exec_next_cases h with ⟨c, rfl, hc, -⟩ | ⟨-, -, rfl⟩ | ⟨-, -, -, rfl⟩ | hbad | ⟨-, -, -, rfl⟩
  · exact .inl ⟨rfl, hc⟩
  · exact absurd rfl hok
  · exact absurd rfl hok
  · exact .inr hbad
  · exact absurd rfl hok

/-- The same of the engine's step in a BUSY state. -/
theorem engineStep_failure_cases {s t : State} (hb : s.engState = .busy) (h : engineStep s = .next t)
    (hok : t.result ≠ .ok) : (t = complete t.result s ∧ t.result ≠ .noMsgBadLength) ∨
      (s.engOp = .command .extract ∧ t = complete .noMsgBadLength (writeHdr (declaredLength s) s)) := by
  rcases engineStep_cases s with ⟨hi, -⟩ | ⟨i, -, ho, he⟩ | ⟨-, -, he⟩
  · rw [hb] at hi
    cases hi
  · rw [he] at h
    rcases exec_failure_cases h hok with hclean | ⟨rfl, hbad⟩
    · exact .inl hclean
    · exact .inr ⟨ho, hbad⟩
  · rw [he] at h
    cases h
    exact .inl ⟨rfl, fun heq => by cases heq⟩

/-! ### What each command writes -/

/-- R153: PIXMEM is written by EMBED alone. -/
theorem exec_pixmem {i : Instr} {s t : State} (h : exec i s = .next t) (hi : i ≠ .embed) :
    sameBytes .pixmem s t := by
  intro a
  rcases exec_next_cases h with ⟨c, rfl, -, -⟩ | ⟨-, -, rfl⟩ | ⟨he, -⟩ | ⟨-, rfl⟩ | ⟨-, hd, -, rfl⟩
  · exact memRead_complete ..
  · rw [memRead_complete, mixLoop_otherMem (by decide)]
  · exact absurd he hi
  · rw [memRead_complete, memRead_writeHdr]
  · exact memRead_extractAccepted_otherMem (by decide) hd a

/-- R166 and R190: MSGMEM is written by EXTRACT and MIX alone. -/
theorem exec_msgmem {i : Instr} {s t : State} (h : exec i s = .next t) (hx : i ≠ .extract)
    (hm : i ≠ .mix) : sameBytes .msgmem s t := by
  intro a
  rcases exec_next_cases h with ⟨c, rfl, -, -⟩ | ⟨he, -⟩ | ⟨-, -, -, rfl⟩ | ⟨he, -⟩ | ⟨he, -⟩
  · exact memRead_complete ..
  · exact absurd he hm
  · rw [memRead_complete, embedWalk_otherMem (by decide)]
  · exact absurd he hx
  · exact absurd he hx

/-- R164 and R166: MSGLEN and HDR are written by EXTRACT alone. -/
theorem exec_msglen_hdr {i : Instr} {s t : State} (h : exec i s = .next t) (hx : i ≠ .extract) :
    t.msglen = s.msglen ∧ t.hdr = s.hdr := by
  rcases exec_next_cases h with ⟨c, rfl, -, -⟩ | ⟨-, -, rfl⟩ | ⟨-, -, -, rfl⟩ | ⟨he, -⟩ | ⟨he, -⟩
  · exact ⟨rfl, rfl⟩
  · have hmem := memOnly_mixLoop s.K s.L 0 s
    exact ⟨(memOnly_msglen hmem :), (memOnly_hdr hmem :)⟩
  · have hmem := memOnly_embedWalk 0 (embedEncoded s) s
    exact ⟨(memOnly_msglen hmem :), (memOnly_hdr hmem :)⟩
  · exact absurd he hx
  · exact absurd he hx

/-- What a completion may write to memories, MSGLEN and HDR, by operation and result. -/
structure writesOnlyTargets (op : EngOp) (s t : State) : Prop where
  pixmem : ¬ (op = .command .embed ∧ t.result = .ok) → sameBytes .pixmem s t
  msgmem : ¬ ((op = .command .extract ∨ op = .command .mix) ∧ t.result = .ok) → sameBytes .msgmem s t
  msglen : ¬ (op = .command .extract ∧ t.result = .ok) → t.msglen = s.msglen
  hdr : ¬ (op = .command .extract ∧ (t.result = .ok ∨ t.result = .noMsgBadLength)) → t.hdr = s.hdr

/-- A completion with STATUS alone changed writes none of them. -/
theorem writesOnlyTargets_complete (op : EngOp) (c : Result) (s : State) :
    writesOnlyTargets op s (complete c s) :=
  ⟨fun _ _ => memRead_complete .., fun _ _ => memRead_complete .., fun _ => rfl, fun _ => rfl⟩

theorem exec_writesOnlyTargets {i : Instr} {s t : State} (h : exec i s = .next t) :
    writesOnlyTargets (.command i) s t := by
  by_cases hok : t.result = .ok
  · refine ⟨fun hno => exec_pixmem h ?_, fun hno => exec_msgmem h ?_ ?_,
      fun hno => (exec_msglen_hdr h ?_).1, fun hno => (exec_msglen_hdr h ?_).2⟩ <;>
    · rintro rfl
      simp [hok] at hno
  · rcases exec_failure_cases h hok with ⟨ht, -⟩ | ⟨rfl, rfl⟩
    · rw [ht]
      exact writesOnlyTargets_complete ..
    · exact ⟨fun _ a => by simp, fun _ a => by simp, fun _ => rfl,
        fun hno => absurd ⟨rfl, .inr rfl⟩ hno⟩

theorem engineStep_writesOnlyTargets {s t : State} (hb : s.engState = .busy)
    (h : engineStep s = .next t) : writesOnlyTargets s.engOp s t := by
  rcases engineStep_cases s with ⟨hi, -⟩ | ⟨i, -, ho, he⟩ | ⟨-, -, he⟩
  · rw [hb] at hi
    cases hi
  · rw [ho]
    exact exec_writesOnlyTargets (he ▸ h)
  · rw [he] at h
    cases h
    exact writesOnlyTargets_complete ..

end Sys2Proof.Machine

namespace Sys2Proof.Proofs

open Sys2Proof.Machine

/-- Settles O37: a failure is a completion on the state itself, or on the state with HDR written. -/
theorem failuresChangeNothingElse : Obligations.FailuresChangeNothingElse := by
  unfold Obligations.FailuresChangeNothingElse
  refine fun s t hb h => ⟨fun hfail => ?_, fun hbad => ?_⟩
  · have hok : t.result ≠ .ok := by rintro heq; simp [heq] at hfail
    rcases engineStep_failure_cases hb h hok with ⟨ht, -⟩ | ⟨-, rfl⟩
    · exact ht ▸ onlyStatusChanged_complete t.result s
    · simp at hfail
  · rcases engineStep_failure_cases hb h (by simp [hbad]) with ⟨-, hne⟩ | ⟨-, rfl⟩
    · exact absurd hbad hne
    · exact ⟨⟨rfl, rfl, rfl, rfl, rfl, rfl⟩, ⟨rfl, rfl, rfl⟩, ⟨rfl, rfl, rfl, rfl, rfl⟩,
        fun M a => by simp⟩

/-- Settles O39: the frame of every completion, and the targets of each operation. -/
theorem commandsWriteOnlyTheirTargets : Obligations.CommandsWriteOnlyTheirTargets := by
  unfold Obligations.CommandsWriteOnlyTheirTargets
  intro s t hb h
  obtain ⟨⟨hidle, -, hdone, -, hhazerr, hdoneie⟩, hsurroundings, hpixcount, hkeylen, hkeymem⟩ :=
    engineStep_frame hb h
  have hw := engineStep_writesOnlyTargets hb h
  exact ⟨hidle, hdone, hhazerr, hdoneie, hpixcount, hkeylen, hsurroundings, hkeymem, hw.pixmem, hw.msgmem,
    hw.msglen, hw.hdr⟩

end Sys2Proof.Proofs
end

section
/-! EXTRACT run on two states (41_codec R160 to R168): EXTRACT is a function of what it scans and leaves its
scan as it was, buffers of uniform bits; and the statements O27 and O30 to O32. -/

namespace Sys2Proof.Machine

/-! ### EXTRACT is a function of what it scans -/

theorem extractOutOfRange_congr {s s' : State} (hp : s'.params = s.params) (h : sameScan s s') :
    extractOutOfRange s' = extractOutOfRange s := by
  rw [Bool.eq_iff_iff, extractOutOfRange_eq_true_iff, extractOutOfRange_eq_true_iff, State.P, State.K, hp,
    h.pixcount, h.keylen]
  rfl

/-- R160: on two states with one scan and one block EXTRACT takes the same branch, with the same declared
length and output. -/
theorem exec_extract_congr {s s' : State} (hw : s.params.wf = true) (hp : s'.params = s.params)
    (h : sameScan s s') :
    (∃ c, c ≠ .ok ∧ exec .extract s = .next (complete c s) ∧
      exec .extract s' = .next (complete c s')) ∨
    (∃ d, exec .extract s = .next (complete .noMsgBadLength (writeHdr d s)) ∧
      exec .extract s' = .next (complete .noMsgBadLength (writeHdr d s'))) ∨
    (32 + 8 * declaredLength s ≤ 3 * s.P ∧ exec .extract s = .next (extractAccepted s) ∧
      exec .extract s' = .next (extractAccepted s')) := by
  have hr := extractOutOfRange_congr hp h
  have hP : s'.P = s.P := congrArg BitVec.toNat h.pixcount
  have hd := declaredLength_congr h
  rcases exec_extract_cases s with ⟨hout, he⟩ | ⟨hin, hsmall, he⟩ | ⟨hin, h32, hbad, he⟩ |
    ⟨hin, -, hfit, hlong, -⟩ | ⟨hin, h1, hfit, -, he⟩
  · exact .inl ⟨_, by decide, he, exec_extract_of_outOfRange (hr.trans hout)⟩
  · exact .inl ⟨_, by decide, he, exec_extract_of_tooSmall (hr.trans hin) (by rwa [hP])⟩
  · refine .inr (.inl ⟨_, he, ?_⟩)
    rw [← hd]
    exact exec_extract_of_badLength (hr.trans hin) (by rwa [hP]) (by rwa [hd, hP])
  · exact absurd (declared_fits hw hin hfit) (Nat.not_le.2 hlong)
  · exact .inr (.inr ⟨hfit, he, exec_extract_of_fits (hp ▸ hw) (hr.trans hin) (by rwa [hd])
      (by rwa [hd, hP])⟩)

theorem extractAccepted_result (s : State) : (extractAccepted s).result = .ok := rfl

/-- The bytes that an accepted message leaves in two states with one scan: the same message, and else what
each state held. -/
theorem memRead_extractAccepted_congr {s s' : State} (h : sameScan s s')
    (hd : 32 + 8 * declaredLength s ≤ 3 * s.P) (M : MemName) (a : Nat) :
    memRead M a (extractAccepted s') =
      if M = .msgmem ∧ a < declaredLength s then memRead M a (extractAccepted s)
      else memRead M a s' := by
  have hP : s'.P = s.P := congrArg BitVec.toNat h.pixcount
  have hd' := declaredLength_congr h
  rw [memRead_extractAccepted (by rwa [hd', hP]), memRead_extractAccepted hd, hd', extractOutput_congr h]
  split <;> rfl

/-- EXTRACT leaves what it scans. -/
theorem sameScan_of_exec_extract {s t : State} (h : exec .extract s = .next t) : sameScan s t := by
  obtain ⟨-, -, hpixcount, hkeylen, hkeymem⟩ := exec_frame h
  exact ⟨hpixcount, hkeylen, fun i _ => by rw [exec_pixmem h (by decide)], fun a _ => hkeymem a⟩

theorem complete_complete (c : Result) (s : State) : complete c (complete c s) = complete c s := rfl

theorem complete_writeHdr_again (c : Result) (d : Nat) (s : State) :
    complete c (writeHdr d (complete c (writeHdr d s))) = complete c (writeHdr d s) := rfl

/-- Two commands in a row that agree in the result and in what EXTRACT writes leave states that read
alike. -/
theorem readAlike_of_exec_exec {i j : Instr} {s t u : State} (ht : exec i s = .next t)
    (hu : exec j t = .next u) (hresult : u.result = t.result) (hmsglen : u.msglen = t.msglen)
    (hhdr : u.hdr = t.hdr) (hbytes : ∀ M, sameBytes M t u) : readAlike t u := by
  obtain ⟨⟨htidle, -, htdone, -⟩, -⟩ := exec_frame ht
  obtain ⟨⟨huidle, hengOp, hudone, -, hhazerr, hdoneie⟩, ⟨hparams, -⟩, hpixcount, hkeylen, -⟩ :=
    exec_frame hu
  have hidle : u.engState = t.engState := huidle.trans htidle.symm
  have hdone : u.done = t.done := hudone.trans htdone.symm
  exact ⟨readReg_congr hparams hidle hdone hresult hhazerr hdoneie hpixcount hmsglen hkeylen hhdr, hbytes,
    hidle, hengOp⟩

/-! ### Uniform buffers -/

/-- R164: decoded bits that start with the 32 bits of `v` declare the length `v`. -/
theorem declaredLength_of_take {s : State} {v : Word} (h : (decodedBits s).take 32 = be32bits v) :
    declaredLength s = v.toNat :=
  (congrArg bitsToNat h).trans (bitsToNat_be32bits v)

theorem decodedBits_without_key {s : State} (hK : s.K = 0) : decodedBits s = extractedBits s :=
  if_pos ((keyBytes_length s).trans hK)

/-- R168 (c) and (d): without a key, usable bits that are all `b` declare the word whose bits are all `b`. -/
theorem declaredLength_of_uniform {s : State} {v : Word} {b : Bool} (hK : s.K = 0) (h32 : 32 ≤ 3 * s.P)
    (hbits : ∀ i < 3 * s.P, (memRead .pixmem (chan i) s).getLsbD 0 = b)
    (hv : ∀ k < 32, v.getLsbD k = b) : declaredLength s = v.toNat := by
  refine declaredLength_of_take (bits_ext (by simp [h32]) fun i hi => ?_)
  have hi : i < 32 := by rw [List.length_take] at hi; omega
  rw [getD_take_of_lt _ hi, decodedBits_without_key hK, extractedBits_getD s i (by omega),
    hbits i (by omega), be32bits_getD v i hi, hv _ (by omega)]

end Sys2Proof.Machine

namespace Sys2Proof.Proofs

open Sys2Proof.Machine

/-- Settles O27: the scan and the mixer, element by element. -/
theorem extractScansEveryUsableChannel : Obligations.ExtractScansEveryUsableChannel := by
  unfold Obligations.ExtractScansEveryUsableChannel
  refine fun s => ⟨extractedBits_length s, extractedBits_getD s, rfl, fun i hi => ?_⟩
  rw [decodedBits, xorKey_getD _ _ _ (by rwa [extractedBits_length]), extractedBits_getD s i hi,
    keystreamBit_eq_keyBit]

/-- Settles O30: up to 13 pixels leave no room for a message byte, all zero bits declare no byte and all one
bits more than any buffer holds. -/
theorem extractUniformAndSmallBuffers : Obligations.ExtractUniformAndSmallBuffers := by
  unfold Obligations.ExtractUniformAndSmallBuffers
  intro s hP hK h11
  have hr := (extractOutOfRange_eq_false_iff s).2 ⟨hP, hK⟩
  have h32 : 32 ≤ 3 * s.P := by omega
  refine ⟨fun h13 => ?_, fun hK0 hbits => ?_, fun hK0 hbits => ?_⟩
  · exact ⟨_, exec_extract_of_badLength hr h32 (by omega), rfl⟩
  · have hd : declaredLength s = (0#32).toNat :=
      declaredLength_of_uniform hK0 h32 hbits (by decide)
    exact ⟨_, exec_extract_of_badLength hr h32 (.inl hd), rfl, by rw [complete_hdr, writeHdr_hdr, hd]; rfl⟩
  · have hd : declaredLength s = (0xFFFFFFFF#32).toNat :=
      declaredLength_of_uniform hK0 h32 hbits (by decide)
    have hlt : s.P < 2 ^ 32 := s.pixcount.isLt
    have hlong : 32 + 8 * declaredLength s > 3 * s.P := by
      rw [hd, show (0xFFFFFFFF#32).toNat = 4294967295 from rfl]
      omega
    exact ⟨_, exec_extract_of_badLength hr h32 (.inr hlong), rfl,
      by rw [complete_hdr, writeHdr_hdr, hd]; rfl⟩

/-- Settles O31: EXTRACT leaves what it scans, so the second run takes the branch of the first and writes
again what stands there. -/
theorem extractTwiceGivesSameState : Obligations.ExtractTwiceGivesSameState := by
  unfold Obligations.ExtractTwiceGivesSameState
  intro s hw
  obtain ⟨t, ht⟩ := exec_answers .extract hw
  have hscan := sameScan_of_exec_extract ht
  obtain ⟨-, ⟨hparams, -⟩, -⟩ := exec_frame ht
  suffices h : ∃ u, exec .extract t = .next u ∧ u.result = t.result ∧ u.msglen = t.msglen ∧
      u.hdr = t.hdr ∧ ∀ M, sameBytes M t u by
    obtain ⟨u, hu, hresult, hmsglen, hhdr, hbytes⟩ := h
    obtain ⟨-, hsurroundings, -⟩ := exec_frame hu
    exact ⟨t, u, ht, hu, readAlike_of_exec_exec ht hu hresult hmsglen hhdr hbytes, hsurroundings⟩
  rcases exec_extract_congr hw hparams hscan with ⟨c, -, he, he'⟩ | ⟨d, he, he'⟩ | ⟨hd, he, he'⟩ <;>
    obtain rfl := Host.Outcome.next.inj (he.symm.trans ht) <;> refine ⟨_, he', ?_⟩
  · rw [complete_complete]
    exact ⟨rfl, rfl, rfl, fun M a => rfl⟩
  · rw [complete_writeHdr_again]
    exact ⟨rfl, rfl, rfl, fun M a => rfl⟩
  · have hlen := declaredLength_congr hscan
    refine ⟨?_, ?_, ?_, fun M a => ?_⟩
    · rw [extractAccepted_result, extractAccepted_result]
    · rw [extractAccepted_msglen, hlen, extractAccepted_msglen]
    · rw [extractAccepted_hdr, hlen, extractAccepted_hdr]
    · rw [memRead_extractAccepted_congr hscan hd, ite_self]

/-- Settles O32: MSGLEN and MSGMEM are no part of the scan, so both runs take the same branch. -/
theorem extractReadsNoMessage : Obligations.ExtractReadsNoMessage := by
  unfold Obligations.ExtractReadsNoMessage
  intro s l m hw
  have hscan : sameScan s { s with msglen := l, msgmem := m } :=
    ⟨rfl, rfl, fun _ _ => rfl, fun _ _ => rfl⟩
  rcases exec_extract_congr (s' := { s with msglen := l, msgmem := m }) hw rfl hscan with
    ⟨c, hc, he, he'⟩ | ⟨d, he, he'⟩ | ⟨hd, he, he'⟩
  · exact ⟨_, _, he, he', rfl, rfl, fun a => rfl, fun a => rfl, fun hok => absurd hok hc, fun _ => rfl⟩
  · exact ⟨_, _, he, he', rfl, rfl, fun a => rfl, fun a => rfl, fun hok => (by cases hok), fun _ => rfl⟩
  · have hlen := declaredLength_congr hscan
    have hbytes := memRead_extractAccepted_congr hscan hd
    refine ⟨_, _, he, he', rfl, ?_, fun a => ?_, fun a => ?_, fun _ => ⟨?_, fun a ha => ?_⟩,
      fun hne => absurd rfl hne⟩
    · rw [extractAccepted_hdr, extractAccepted_hdr, hlen]
    · rw [hbytes, if_neg (by simp), memRead_extractAccepted_otherMem (by decide) hd]
      rfl
    · rw [hbytes, if_neg (by simp), memRead_extractAccepted_otherMem (by decide) hd]
      rfl
    · rw [extractAccepted_msglen, extractAccepted_msglen, hlen]
    · have hL : (extractAccepted s).L = declaredLength s := ofNat_declaredLength_toNat s
      rw [hbytes, if_pos ⟨rfl, hL ▸ ha⟩]

end Sys2Proof.Proofs
end

section
/-! A command is a function of the state at acceptance (20_memory R73, 41_codec R180): commands and the
engine's step on two states with the same operands, what the host's transactions leave of them while BUSY; and
the statement O40. -/

namespace Sys2Proof.Machine

/-! ### Commands on two states -/

/-- The two states have the block, the registers and the bytes that a command reads or writes in common. -/
structure sameArchitecture (s t : State) : Prop where
  params : t.params = s.params
  regs : sameOperandRegs s t
  hdr : t.hdr = s.hdr
  bytes : ∀ M, sameBytes M s t

theorem sameArchitecture_trans {s t u : State} (h : sameArchitecture s t) (h' : sameArchitecture t u) :
    sameArchitecture s u where
  params := h'.params.trans h.params
  regs := by
    obtain ⟨h1, h2, h3⟩ := h.regs
    obtain ⟨h1', h2', h3'⟩ := h'.regs
    exact ⟨h1'.trans h1, h2'.trans h2, h3'.trans h3⟩
  hdr := h'.hdr.trans h.hdr
  bytes := fun M a => (h'.bytes M a).trans (h.bytes M a)

theorem sameArchitecture_complete {s s' : State} (h : sameArchitecture s s') (c : Result) :
    sameArchitecture (complete c s) (complete c s') :=
  ⟨h.params, h.regs, h.hdr, fun M a => by simp [h.bytes M a]⟩

/-- States that differ from two such states in bytes alone are two such states if the bytes agree. -/
theorem sameArchitecture_of_memOnly {s s' t t' : State} (h : sameArchitecture s s') (ht : memOnly s t)
    (ht' : memOnly s' t') (hbytes : ∀ M, sameBytes M t t') : sameArchitecture t t' := by
  obtain ⟨h1, h2, h3⟩ := h.regs
  exact {
    params := by rw [memOnly_params ht', memOnly_params ht, h.params]
    regs := by
      refine ⟨?_, ?_, ?_⟩
      · rw [memOnly_pixcount ht', memOnly_pixcount ht, h1]
      · rw [memOnly_msglen ht', memOnly_msglen ht, h2]
      · rw [memOnly_keylen ht', memOnly_keylen ht, h3]
    hdr := by rw [memOnly_hdr ht', memOnly_hdr ht, h.hdr]
    bytes := hbytes }

theorem sameScan_of_sameArchitecture {s s' : State} (h : sameArchitecture s s') : sameScan s s' := by
  obtain ⟨hpixcount, -, hkeylen⟩ := h.regs
  exact ⟨hpixcount, hkeylen, fun i _ => by rw [h.bytes], fun a _ => h.bytes .keymem a⟩

/-- MIX's loop is a function of the bytes it finds. -/
theorem mixLoop_congr {s s' : State} (h : ∀ M, sameBytes M s s') (k n j : Nat) (M : MemName) :
    sameBytes M (mixLoop k n j s) (mixLoop k n j s') := by
  intro a
  by_cases hM : M = .msgmem
  · subst hM
    rw [mixLoop_msgmem, mixLoop_msgmem, h .msgmem, h .keymem]
  · rw [mixLoop_otherMem hM, mixLoop_otherMem hM, h M]

theorem embedWalk_sameBytes (bs : BitString) {s s' : State} (h : ∀ M, sameBytes M s s') (M : MemName) :
    sameBytes M (embedWalk 0 bs s) (embedWalk 0 bs s') := by
  by_cases hM : M = .pixmem
  · subst hM
    exact embedWalk_congr bs (h .pixmem)
  · intro a
    rw [embedWalk_otherMem hM, embedWalk_otherMem hM, h M]

theorem exec_mix_sameArchitecture {s s' : State} (h : sameArchitecture s s') :
    ∃ t t', exec .mix s = .next t ∧ exec .mix s' = .next t' ∧ t'.result = t.result ∧
      sameArchitecture t t' := by
  obtain ⟨-, hmsglen, hkeylen⟩ := h.regs
  have hr := mixOutOfRange_congr h.params hmsglen hkeylen
  have hL : s'.L = s.L := congrArg BitVec.toNat hmsglen
  have hK : s'.K = s.K := congrArg BitVec.toNat hkeylen
  rcases exec_mix_cases s with ⟨hout, he⟩ | ⟨hin, hk, he⟩ | ⟨hin, hk, he⟩
  · exact ⟨_, _, he, exec_mix_of_outOfRange (hr.trans hout), rfl, sameArchitecture_complete h _⟩
  · exact ⟨_, _, he, exec_mix_of_noKey (hr.trans hin) (hK.trans hk), rfl, sameArchitecture_complete h _⟩
  · have he' := exec_mix_of_key (hr.trans hin) (by omega)
    rw [hL, hK] at he'
    exact ⟨_, _, he, he', rfl, sameArchitecture_complete (sameArchitecture_of_memOnly h
      (memOnly_mixLoop ..) (memOnly_mixLoop ..) (mixLoop_congr h.bytes _ _ _)) _⟩

theorem exec_embed_sameArchitecture {s s' : State} (h : sameArchitecture s s') :
    ∃ t t', exec .embed s = .next t ∧ exec .embed s' = .next t' ∧ t'.result = t.result ∧
      sameArchitecture t t' := by
  obtain ⟨hpixcount, hmsglen, hkeylen⟩ := h.regs
  have hr := embedOutOfRange_congr h.params h.regs
  have hP : s'.P = s.P := congrArg BitVec.toNat hpixcount
  have hL : s'.L = s.L := congrArg BitVec.toNat hmsglen
  have henc : embedEncoded s' = embedEncoded s := embedEncoded_congr hmsglen hkeylen
    (fun a _ => h.bytes .msgmem a) (fun a _ => h.bytes .keymem a)
  rcases exec_embed_cases s with ⟨hout, he⟩ | ⟨hin, hlong, he⟩ | ⟨hin, hfit, he⟩
  · exact ⟨_, _, he, exec_embed_of_outOfRange (hr.trans hout), rfl, sameArchitecture_complete h _⟩
  · exact ⟨_, _, he, exec_embed_of_tooLong (hr.trans hin) (by rwa [hP, hL]), rfl,
      sameArchitecture_complete h _⟩
  · have he' := exec_embed_of_fits (hr.trans hin) (by rwa [hP, hL])
    rw [henc] at he'
    exact ⟨_, _, he, he', rfl, sameArchitecture_complete (sameArchitecture_of_memOnly h
      (memOnly_embedWalk ..) (memOnly_embedWalk ..) (embedWalk_sameBytes _ h.bytes)) _⟩

theorem exec_extract_sameArchitecture {s s' : State} (hw : s.params.wf = true)
    (h : sameArchitecture s s') :
    ∃ t t', exec .extract s = .next t ∧ exec .extract s' = .next t' ∧ t'.result = t.result ∧
      sameArchitecture t t' := by
  have hscan := sameScan_of_sameArchitecture h
  rcases exec_extract_congr hw h.params hscan with ⟨c, -, he, he'⟩ | ⟨d, he, he'⟩ | ⟨hd, he, he'⟩
  · exact ⟨_, _, he, he', rfl, sameArchitecture_complete h c⟩
  · exact ⟨_, _, he, he', rfl, h.params, h.regs, rfl, fun M a => by simp [h.bytes M a]⟩
  · obtain ⟨-, ⟨hparams, -⟩, hpixcount, hkeylen, -⟩ := exec_frame he
    obtain ⟨-, ⟨hparams', -⟩, hpixcount', hkeylen', -⟩ := exec_frame he'
    have hlen := declaredLength_congr hscan
    refine ⟨_, _, he, he', ?_, ?_, ⟨?_, ?_, ?_⟩, ?_, fun M a => ?_⟩
    · rw [extractAccepted_result, extractAccepted_result]
    · rw [hparams', hparams, h.params]
    · rw [hpixcount', hpixcount, hscan.pixcount]
    · rw [extractAccepted_msglen, hlen, extractAccepted_msglen]
    · rw [hkeylen', hkeylen, hscan.keylen]
    · rw [extractAccepted_hdr, hlen, extractAccepted_hdr]
    · rw [memRead_extractAccepted_congr hscan hd]
      split
      case isTrue => rfl
      case isFalse hnot => rw [memRead_extractAccepted hd, if_neg hnot, h.bytes M]

/-- R180: a command is a function of the registers and bytes it is given. -/
theorem exec_sameArchitecture (i : Instr) {s s' : State} (hw : s.params.wf = true)
    (h : sameArchitecture s s') :
    ∃ t t', exec i s = .next t ∧ exec i s' = .next t' ∧ t'.result = t.result ∧
      sameArchitecture t t' := by
  cases i with
  | nop => exact ⟨_, _, exec_nop s, exec_nop s', rfl, sameArchitecture_complete h _⟩
  | embed => exact exec_embed_sameArchitecture h
  | extract => exact exec_extract_sameArchitecture hw h
  | mix => exact exec_mix_sameArchitecture h

/-- R180 of the engine's step, the operation ILLEGAL included. -/
theorem engineStep_sameArchitecture {s s' : State} (hw : s.params.wf = true) (hb : s.engState = .busy)
    (hb' : s'.engState = .busy) (ho : s'.engOp = s.engOp) (h : sameArchitecture s s') :
    ∃ t t', engineStep s = .next t ∧ engineStep s' = .next t' ∧ t'.result = t.result ∧
      sameArchitecture t t' := by
  cases hop : s.engOp with
  | command i =>
    rw [engineStep_of_command hb hop, engineStep_of_command hb' (ho.trans hop)]
    exact exec_sameArchitecture i hw h
  | illegal =>
    exact ⟨_, _, engineStep_of_illegal hb hop, engineStep_of_illegal hb' (ho.trans hop), rfl,
      sameArchitecture_complete h _⟩

/-! ### The host while a command runs -/

/-- `t` holds in flight the command that `s` holds, with the same operands, and is not under reset. -/
structure sameCommand (s t : State) : Prop where
  rst : t.rst = false
  engState : t.engState = .busy
  done : t.done = false
  engOp : t.engOp = s.engOp
  architecture : sameArchitecture s t

/-- What comes next is no part of the command in flight. -/
theorem sameCommand_with_inputs {s t : State} (h : sameCommand s t) (es : List Event) :
    sameCommand s { t with inputs := es } where
  rst := h.rst
  engState := h.engState
  done := h.done
  engOp := h.engOp
  architecture := ⟨h.architecture.params, h.architecture.regs, h.architecture.hdr,
    fun M a => (memRead_with_inputs ..).trans (h.architecture.bytes M a)⟩

/-- R23 and R73 to R75: a transaction leaves the command in flight and its operands. -/
theorem hostStep_sameCommand {s t : State} (h : sameCommand s t) (tr : Transaction) :
    sameCommand s (hostStep tr t) := by
  obtain ⟨hb, hop, hd, hregs, hbytes⟩ := transact_busy (tr := tr) h.engState h.done
  exact {
    rst := (hostStep_rst tr t).trans h.rst
    engState := hb
    done := hd
    engOp := hop.trans h.engOp
    architecture := sameArchitecture_trans h.architecture
      ⟨hostStep_params tr t, hregs, transact_hdr tr t,
        fun M a => (memRead_with_response ..).trans (hbytes M a)⟩ }

/-- So does every list of transactions, which the run takes one by one. -/
theorem runSteps_sameCommand {s : State} {ts : List Transaction} {es : List Event} {t : State}
    (h : sameCommand s t) (hin : t.inputs = ts.map Event.host ++ es) :
    ∃ u, runSteps ts.length t = .next u ∧ u.inputs = es ∧ sameCommand s u := by
  induction ts generalizing t with
  | nil => exact ⟨t, rfl, hin, h⟩
  | cons tr ts ih =>
    have h' := hostStep_sameCommand (sameCommand_with_inputs h (ts.map Event.host ++ es)) tr
    obtain ⟨u, hrun, hrest, hu⟩ := ih h' (hostStep_inputs ..)
    exact ⟨u, (runSteps_next (step_host h.rst hin)).trans hrun, hrest, hu⟩

/-- R211: the acceptance of a CMD write. -/
theorem hostStep_cmd_sameCommand {s : State} (hr : s.rst = false) (hi : s.engState = .idle) (v : Word)
    (es : List Event) :
    sameCommand (accept v s) (hostStep (sw Reg.cmd.offset v) { s with inputs := es }) := by
  rw [hostStep_cmd_of_idle (s := { s with inputs := es }) hi]
  exact ⟨hr, rfl, rfl, rfl, rfl, ⟨rfl, rfl, rfl⟩, rfl, fun M a => by cases M <;> rfl⟩

end Sys2Proof.Machine

namespace Sys2Proof.Proofs

open Sys2Proof.Machine

/-- Settles O40: from acceptance on the host's transactions leave the command in flight and its operands, so
the engine's turn after them completes it as straight after acceptance. -/
theorem completionIgnoresTransactionsWhileBusy : Obligations.CompletionIgnoresTransactionsWhileBusy := by
  unfold Obligations.CompletionIgnoresTransactionsWhileBusy
  intro s v ts rest hw hr hi hin
  obtain ⟨x, hrun, hrest, hx⟩ := runSteps_sameCommand (ts := ts)
    (hostStep_cmd_sameCommand hr hi v (ts.map .host ++ .engine :: rest)) (hostStep_inputs ..)
  obtain ⟨u, t, hu, ht, hresult, harch⟩ := engineStep_sameArchitecture (s := accept v s)
    (s' := { x with inputs := rest }) hw rfl hx.engState hx.engOp
    (sameCommand_with_inputs hx rest).architecture
  obtain ⟨⟨-, huop, -⟩, -⟩ := engineStep_frame (s := accept v s) rfl hu
  obtain ⟨⟨hidle, htop, hdone, -⟩, ⟨-, -, -, -, hinputs⟩, -⟩ :=
    engineStep_frame (s := { x with inputs := rest }) hx.engState ht
  refine ⟨t, u, ?_, hu, hidle, hdone, hinputs, (htop.trans hx.engOp).trans huop.symm, hresult, harch.hdr,
    harch.regs, harch.bytes⟩
  rw [runSteps_next (step_host hr hin), runSteps_add hrun 1, runSteps_next ((step_engine hrest).trans ht),
    runSteps_zero]

end Sys2Proof.Proofs
end

section
/-! The host's bus while IDLE (20_memory R63 to R69), the fields of STATUS and the lines of a host program: what
one transaction does by its target; and the statements O51, O59, O55, O60 and O10. -/

namespace Sys2Proof.Machine

/-! ### One transaction, by its target -/

theorem transact_reg_read {t : Transaction} {s : State} {r : Reg} (h : target s.params t = some (.reg r))
    (hk : t.kind = .read) : transact t s = (okay (readReg r s), s) := by
  simp only [transact, h, hk]

theorem transact_reg_write {t : Transaction} {s : State} {r : Reg} (h : target s.params t = some (.reg r))
    (hk : t.kind = .write) : transact t s = (okay 0#32, writeReg r t.wdata s) := by
  simp only [transact, h, hk]

theorem transact_window_read {t : Transaction} {s : State} {M : MemName} {a : Nat}
    (hi : s.engState = .idle) (h : target s.params t = some (.window M a)) (hk : t.kind = .read) :
    transact t s = (okay (BitVec.ofNat 32 (laneWord (memReadList M a t.size.bytes s))), s) := by
  simp only [transact, h, hk, windowRead, (busy_eq_false_iff s).2 hi, Bool.false_eq_true, if_false]

theorem transact_window_write {t : Transaction} {s : State} {M : MemName} {a : Nat}
    (hi : s.engState = .idle) (h : target s.params t = some (.window M a)) (hk : t.kind = .write) :
    transact t s = (okay 0#32, memWriteList M a (laneBytes t.wdata t.size.bytes) s) := by
  simp only [transact, h, hk, windowWrite, (busy_eq_false_iff s).2 hi, Bool.false_eq_true, if_false]

/-- R69: a READ while IDLE leaves the state as it is. -/
theorem transact_read_of_idle {t : Transaction} {s : State} (hi : s.engState = .idle)
    (hk : t.kind = .read) : (transact t s).2 = s := by
  cases h : target s.params t with
  | none => rw [transact_of_target_none h]
  | some T =>
    cases T with
    | reg r => rw [transact_reg_read h hk]
    | window M a => rw [transact_window_read hi h hk]

/-! ### Little-endian lanes -/

theorem BusSize.bytes_le (z : BusSize) : z.bytes ≤ 4 := by cases z <;> decide

theorem laneWord_lt (bs : List Byte) : laneWord bs < 2 ^ (8 * bs.length) := by
  induction bs with
  | nil => decide
  | cons b bs ih =>
    have hb : b.toNat < 2 ^ 8 := b.isLt
    have hpow : 2 ^ (8 * (b :: bs).length) = 2 ^ (8 * bs.length) * 256 := by
      rw [List.length_cons, Nat.mul_succ, pow_add, show (2 : Nat) ^ 8 = 256 from rfl]
    rw [laneWord, hpow]
    omega

theorem memReadList_getD {M : MemName} {a n i : Nat} (hi : i < n) (s : State) :
    (memReadList M a n s).getD i 0#8 = memRead M (a + i) s := by
  rw [List.getD_eq_getElem _ _ (by rwa [memReadList_length]), memReadList_getElem]

/-- R63: the read data of at most four bytes is the sum of the bytes on their lanes. -/
theorem laneWord_memReadList_toNat (M : MemName) (a : Nat) {n : Nat} (hn : n ≤ 4) (s : State) :
    (BitVec.ofNat 32 (laneWord (memReadList M a n s))).toNat =
      ∑ i ∈ Finset.range n, (memRead M (a + i) s).toNat * 2 ^ (8 * i) := by
  have hlt : laneWord (memReadList M a n s) < 2 ^ 32 :=
    (laneWord_lt _).trans_le (Nat.pow_le_pow_right (by decide) (by rw [memReadList_length]; omega))
  rw [BitVec.toNat_ofNat, Nat.mod_eq_of_lt hlt, laneWord_eq_sum, memReadList_length]
  exact Finset.sum_congr rfl fun i hi => by rw [memReadList_getD (Finset.mem_range.1 hi)]

theorem laneBytes_getD {w : Word} {n i : Nat} (hi : i < n) :
    (laneBytes w n).getD i 0#8 = w.extractLsb' (8 * i) 8 := by
  simp [laneBytes, hi]

/-- R63: byte `i` of a WRITE of `n` bytes at `a`. -/
theorem memRead_laneBytes {w : Word} {n i : Nat} (hi : i < n) (M : MemName) (a : Nat) (s : State) :
    memRead M (a + i) (memWriteList M a (laneBytes w n) s) = w.extractLsb' (8 * i) 8 := by
  rw [memRead_memWriteList, if_pos ⟨rfl, by omega, by rw [laneBytes_length]; omega⟩,
    Nat.add_sub_cancel_left]
  exact laneBytes_getD hi

/-- A WRITE of bytes leaves every other byte of its memory. -/
theorem memRead_memWriteList_other {M : MemName} {a b : Nat} {bs : List Byte}
    (hb : ∀ i < bs.length, b ≠ a + i) (s : State) :
    memRead M b (memWriteList M a bs s) = memRead M b s := by
  rw [memRead_memWriteList, if_neg]
  rintro ⟨-, hge, hlt⟩
  exact hb (b - a) (by omega) (by omega)

theorem memRead_memWriteList_otherMem {M N : MemName} (hN : N ≠ M) (a b : Nat) (bs : List Byte)
    (s : State) : memRead N b (memWriteList M a bs s) = memRead N b s := by
  rw [memRead_memWriteList, if_neg fun h => hN h.1]

/-- No register read looks at memory bytes. -/
theorem readReg_memWriteList (M : MemName) (a : Nat) (bs : List Byte) (s : State) (r : Reg) :
    readReg r (memWriteList M a bs s) = readReg r s :=
  readReg_congr (memWriteList_params ..) (memWriteList_engState ..) (memWriteList_done ..)
    (memWriteList_result ..) (memWriteList_hazerr ..) (memWriteList_doneie ..)
    (memWriteList_pixcount ..) (memWriteList_msglen ..) (memWriteList_keylen ..)
    (memWriteList_hdr ..) r

theorem sameSurroundings_memWriteList (M : MemName) (a : Nat) (bs : List Byte) (s : State) :
    sameSurroundings s (memWriteList M a bs s) :=
  ⟨memWriteList_params .., memWriteList_rst .., memWriteList_drawNo .., memWriteList_response ..,
    memWriteList_inputs ..⟩

/-! ### Writes done twice -/

theorem readAlike_refl (s : State) : readAlike s s := ⟨fun _ => rfl, fun _ _ => rfl, rfl, rfl⟩

/-- R69: the same bytes written again change no byte. -/
theorem readAlike_memWriteList_again (M : MemName) (a : Nat) (bs : List Byte) (s : State) :
    readAlike (memWriteList M a bs s) (memWriteList M a bs (memWriteList M a bs s)) := by
  refine ⟨fun r => readReg_memWriteList .., fun N b => ?_, memWriteList_engState ..,
    memWriteList_engOp ..⟩
  rw [memRead_memWriteList, memRead_memWriteList]
  split <;> rfl

theorem writeStatus_writeStatus (w : Word) (s : State) :
    writeStatus w (writeStatus w s) = writeStatus w s := by
  simp [writeStatus]

/-- While IDLE no register write but one to CMD starts the engine. -/
theorem writeReg_engState_of_idle {r : Reg} {s : State} (hi : s.engState = .idle) (hr : r ≠ .cmd)
    (v : Word) : (writeReg r v s).engState = .idle := by
  cases r <;> simp [writeReg, unlessBusy_of_idle hi, hi] at hr ⊢

/-- R69: while IDLE a register write other than one to CMD is idempotent. -/
theorem writeReg_writeReg_of_idle {r : Reg} {s : State} (hi : s.engState = .idle) (hr : r ≠ .cmd)
    (v : Word) : writeReg r v (writeReg r v s) = writeReg r v s := by
  have hi' := writeReg_engState_of_idle hi hr v
  cases r with
  | cmd => exact absurd rfl hr
  | status => exact writeStatus_writeStatus v s
  | pixcount | msglen | keylen =>
    rw [writeReg, unlessBusy_of_idle hi', writeReg, unlessBusy_of_idle hi]
  | id | inten | capbits | hdr | pixmax | msgmax | keymax => rfl

/-! ### The fields of STATUS -/

/-- R26: STATUS bit 0 is BUSY. -/
theorem statusWord_getLsbD_zero (s : State) : (statusWord s).getLsbD 0 = s.busy := by
  simp only [statusWord, BitVec.getLsbD_append]
  simp

/-- R26: STATUS bits 4 to 2 are the code of RESULT. -/
theorem statusWord_result (s : State) : (statusWord s).extractLsb' 2 3 = s.result.code := by
  apply BitVec.eq_of_getLsbD_eq
  intro i hi
  have h1 : ¬ 2 + i < 1 := by omega
  have h2 : ¬ 2 + i - 1 < 1 := by omega
  have h3 : 2 + i - 1 - 1 = i := by omega
  simp only [BitVec.getLsbD_extractLsb', statusWord, BitVec.getLsbD_append, h1, h2, h3, hi, decide_true,
    Bool.true_and, if_true, if_false]

/-- R26: STATUS bit 5 is HAZERR. -/
theorem statusWord_getLsbD_five (s : State) : (statusWord s).getLsbD 5 = s.hazerr := by
  simp only [statusWord, BitVec.getLsbD_append]
  simp

/-- R26: STATUS bits from 6 on read 0. -/
theorem statusWord_getLsbD_of_six_le (s : State) {i : Nat} (hi : 6 ≤ i) :
    (statusWord s).getLsbD i = false := by
  have h1 : ¬ i < 1 := by omega
  have h2 : ¬ i - 1 < 1 := by omega
  have h3 : ¬ i - 1 - 1 < 3 := by omega
  have h4 : ¬ i - 1 - 1 - 3 < 1 := by omega
  simp only [statusWord, BitVec.getLsbD_append, h1, h2, h3, h4, if_false]
  simp

/-! ### Host programs -/

/-- R99: a register read leaves its data in `r`. -/
theorem hostLine_lw (r : Reg) (c : HostControl) (s : State) :
    (hostLine (.issue (lw r.offset)) c s).1 = { line := c.line + 1, r := readReg r s } := by
  have h := congrArg (fun p => p.1.rdata) (transact_lw r s)
  exact congrArg (HostControl.mk (c.line + 1)) h

/-- R101: where `wait`'s branch goes after its read. -/
theorem wait_line (c : HostControl) (s : State) :
    (hostLine (.bbs 0 c.line) (hostLine (.issue (lw Reg.status.offset)) c s).1 s).1.line =
      if s.busy then c.line else c.line + 2 := by
  rw [hostLine_lw, hostLine, readReg, statusWord_getLsbD_zero]

end Sys2Proof.Machine

namespace Sys2Proof.Proofs

open Sys2Proof.Machine

/-- Settles O51: a legal window access reaches its bytes, and while IDLE it reads them on their lanes or
writes them and nothing else. -/
theorem windowAccessIsLittleEndian : Obligations.WindowAccessIsLittleEndian := by
  unfold Obligations.WindowAccessIsLittleEndian
  intro s t M hw hi hlegal
  have htarget := target_window hw hlegal
  refine ⟨fun hk => ?_, fun hk => ?_⟩
  · rw [transact_window_read hi htarget hk]
    exact ⟨rfl, rfl, laneWord_memReadList_toNat M _ t.size.bytes_le s⟩
  · rw [transact_window_write hi htarget hk]
    exact ⟨rfl, fun i hlt => memRead_laneBytes hlt M _ s,
      fun a ha => memRead_memWriteList_other (by rwa [laneBytes_length]) s,
      fun N hN a => memRead_memWriteList_otherMem hN .., fun r => readReg_memWriteList ..,
      memWriteList_engState .., memWriteList_engOp .., sameSurroundings_memWriteList ..⟩

/-- Settles O59: a READ ends in the state itself; a WRITE done twice meets the same target in the same IDLE
engine. -/
theorem readsHaveNoEffectAndWritesAreIdempotent : Obligations.ReadsHaveNoEffectAndWritesAreIdempotent := by
  unfold Obligations.ReadsHaveNoEffectAndWritesAreIdempotent
  refine ⟨fun s t hk hcase => ?_, fun s t hi hk haddr => ?_⟩
  · rcases hcase with hi | hlegal
    · exact transact_read_of_idle hi hk
    · obtain ⟨hsize, r, ha⟩ := (legalRegister_iff t).1 hlegal
      rw [transact_reg_read (target_reg s.params t r hsize ha) hk]
  · rcases target_cases s.params t with h | ⟨r, h, -, ha⟩ | ⟨M, h, -⟩
    · rw [transact_of_target_none h, transact_of_target_none h]
      exact readAlike_refl s
    · have hr : r ≠ .cmd := by rintro rfl; exact haddr ha
      have hp : (transact t s).2.params = s.params := hostStep_params t s
      have h' : target (transact t s).2.params t = some (.reg r) := by rw [hp, h]
      rw [transact_reg_write h' hk, transact_reg_write h hk]
      change readAlike (writeReg r t.wdata s) (writeReg r t.wdata (writeReg r t.wdata s))
      rw [writeReg_writeReg_of_idle hi hr]
      exact readAlike_refl _
    · rw [transact_window_write hi h hk, transact_window_write (by simpa using hi) (by simpa using h) hk]
      exact readAlike_memWriteList_again ..

/-- Settles O55: the fields of STATUS lie one after another, and no transaction reaches RESULT. -/
theorem statusRegisterFields : Obligations.StatusRegisterFields := by
  unfold Obligations.StatusRegisterFields
  refine ⟨fun s => ?_, fun s t => ?_, fun s w => rfl, rfl, rfl, rfl, rfl, rfl, rfl⟩
  · exact ⟨by rw [readReg, statusWord_getLsbD_zero, busy_eq_true_iff], statusWord_getLsbD_one s,
      statusWord_result s, statusWord_getLsbD_five s, fun i hi => statusWord_getLsbD_of_six_le s hi⟩
  · obtain ⟨-, -, -, hresult, -⟩ := transact_frame t s
    exact hresult

/-- Settles O60: the read leaves STATUS in `r`, whose bit 0 is BUSY, and the branch looks at that bit. -/
theorem waitLoopsWhileBusy : Obligations.WaitLoopsWhileBusy := by
  unfold Obligations.WaitLoopsWhileBusy
  refine fun s c => ⟨rfl, rfl, by rw [hostLine_lw], fun hb => ?_, fun hi => ?_, fun d n line => rfl⟩
  · rw [wait_line, if_pos ((busy_eq_true_iff s).2 hb)]
  · rw [wait_line, if_neg (by simp [hi])]

/-- Settles O10: the seven words and the four bytes, evaluated. -/
theorem commandWordsDecodeAsListed : Obligations.CommandWordsDecodeAsListed := by
  unfold Obligations.CommandWordsDecodeAsListed
  exact ⟨decode_encode .nop, decode_encode .embed, decode_encode .extract, decode_encode .mix, rfl, rfl, rfl,
    rfl⟩

end Sys2Proof.Proofs
end
